-- ==== Sys2Proof/Word.lean ====
section
/-! DEFINITION. The word and byte types of the SQMI unit (spec/00_scope.md R6, R9; spec/10_state.md R20):
every operand, result and register is one unsigned 64-bit word, and bytes are 8 bits. -/

namespace Sys2Proof

/-- An Unsigned64 (00_scope.md R6, R14): "a 64-bit unsigned integer, the universal operand/result type". -/
abbrev Word := BitVec 64

/-- One byte of the register window (20_memory.md R60). -/
abbrev Byte := BitVec 8

end Sys2Proof
end

