-- ==== Sys2Proof/Syntax.lean ====
section
/-! DEFINITION. The six commands of the SQMI command set, edition 1: one constructor per row of
spec/opcode_table.json (30_encoding.md R81). A command word has no register and no immediate fields (R80), so
no constructor has an argument: every operand comes from OPA, OPB and OPC (R84). -/

namespace Sys2Proof

/-- A command of the unit (00_scope.md R2, 30_encoding.md R81). -/
inductive Instr where
  /-- ISQRT: integer square root (41_sqrt.md R123). -/
  | isqrt
  /-- SQRTQ32: 32.32 fixed-point square root (R124). -/
  | sqrtq32
  /-- PSQRT: precision-adapting square root (R125). -/
  | psqrt
  /-- FRND: decimal rendering of a fraction (R128). -/
  | frnd
  /-- MINV: inverse modulo a power of two (42_modinv.md R162). -/
  | minv
  /-- MINVC: inverse with its companion (R163). -/
  | minvc
deriving DecidableEq, Repr

end Sys2Proof
end

