-- ==== Sys2Proof/WellFormed.lean ====
section
/-! DEFINITION. Well-formedness: of a command (there is nothing to check: a command has no field,
30_encoding.md R80, and every command is always present, 00_scope.md R3), and of a 64-bit command word
(30_encoding.md R80 to R82). The legality of a bus access is `Machine.Access.legal`. -/

namespace Sys2Proof

/-- Every command is well formed: it has no operand field (30_encoding.md R80) and none is optional (R3). -/
def Instr.wf : Instr → Bool
  | .isqrt => true
  | .sqrtq32 => true
  | .psqrt => true
  | .frnd => true
  | .minv => true
  | .minvc => true

/-- The reserved field RSV, bits [63:4], is zero (R80, R82). -/
def rsvClear (w : Word) : Bool := w.toNat / 16 == 0

/-- The opcode field OP, bits [3:0], is one of 0x1 to 0x6 (R81, R86). -/
def opAssigned (w : Word) : Bool := decide (1 ≤ w.toNat % 16) && decide (w.toNat % 16 ≤ 6)

/-- A legal command word (R81): RSV zero and OP assigned. -/
def wordWf (w : Word) : Bool := rsvClear w && opAssigned w

end Sys2Proof
end

