-- ==== Sys2Proof/Decode.lean ====
section
/-! DEFINITION. Decoding a command word, total on every word and every list of bytes, and the encoder
written from the same table (30_encoding.md R80 to R88). Bytes stand little-endian (20_memory.md R60). -/

namespace Sys2Proof

/-- Why a command word is illegal. Each is handled alike (30_encoding.md R86). -/
inductive DecodeError where
  /-- RSV, bits [63:4], is not zero (R82). -/
  | reservedBits
  /-- OP is 0x0 or 0x7 to 0xF (R86). -/
  | reservedOpcode
  /-- The bytes are not those of a command write: 8 bytes, or 4 bytes zero-extended (R83). -/
  | wrongLength
deriving DecidableEq, Repr

/-- What decoding answers: a command, or why there is none. -/
inductive Decoded where
  | command (i : Instr)
  | illegal (e : DecodeError)
deriving DecidableEq, Repr

/-- The command, where there is one. -/
def Decoded.toOption : Decoded → Option Instr
  | .command i => some i
  | .illegal _ => none

/-- OP, bits [3:0] of the command word (R80). -/
def opField (w : Word) : BitVec 4 := w.setWidth 4

/-- RSV, bits [63:4] of the command word (R80). -/
def rsvField (w : Word) : BitVec 60 := w.extractLsb' 4 60

/-- The opcode map (R81). -/
def decodeOp (op : BitVec 4) : Decoded :=
  if op = 0x1 then .command .isqrt
  else if op = 0x2 then .command .sqrtq32
  else if op = 0x3 then .command .psqrt
  else if op = 0x4 then .command .frnd
  else if op = 0x5 then .command .minv
  else if op = 0x6 then .command .minvc
  else .illegal .reservedOpcode

/-- `decode(w)` of R87, total on every 64-bit word; a word with a nonzero RSV is illegal whatever its
OP (R82). -/
def decode (w : Word) : Decoded :=
  if rsvField w = 0 then decodeOp (opField w) else .illegal .reservedBits

/-- The 64-bit word of little-endian bytes (20_memory.md R60). -/
def wordOfBytes : List Byte → Word
  | [] => 0
  | b :: bs => b.setWidth 64 ||| (wordOfBytes bs <<< 8)

/-- The first `n` little-endian bytes of a word (20_memory.md R60). -/
def bytesOfWord : Nat → Word → List Byte
  | 0, _ => []
  | n + 1, w => w.setWidth 8 :: bytesOfWord n (w >>> 8)

/-- Decoding the bytes of a command write: 8 bytes, or 4 bytes zero-extended (30_encoding.md R83). -/
def decodeBytes (bs : List Byte) : Decoded :=
  if bs.length = 8 ∨ bs.length = 4 then decode (wordOfBytes bs) else .illegal .wrongLength

/-- The command word of a command (R81). -/
def encode : Instr → Word
  | .isqrt => 0x0000000000000001
  | .sqrtq32 => 0x0000000000000002
  | .psqrt => 0x0000000000000003
  | .frnd => 0x0000000000000004
  | .minv => 0x0000000000000005
  | .minvc => 0x0000000000000006

/-- The command word as the 8 bytes of a write at CMD (R83; 20_memory.md R60). -/
def encodeBytes (i : Instr) : List Byte := bytesOfWord 8 (encode i)

/-- The decoder's answer on a row of spec/opcode_table.json: `nbits` bits of value `w`, bit 0 the least
significant bit of the command word, laid out in its 8 bytes and given to `decodeBytes`. -/
def decodeTableWord (nbits w : Nat) : Option Instr :=
  if nbits ≤ 64 then
    (decodeBytes (bytesOfWord 8 (BitVec.ofNat 64 (w % 2 ^ nbits)))).toOption
  else none

end Sys2Proof
end

