-- ==== Sys2Proof/Machine/State.lean ====
section
/-! DEFINITION. The state of the SQMI unit (10_state.md R20 to R42), the accesses and steps of R12, and the
reset state (R40). Plain data throughout. -/

namespace Sys2Proof.Machine

/-- The kind of a bus access: `MemRead` or `MemWrite` (00_scope.md R11). -/
inductive AccessKind where
  | read
  | write
deriving DecidableEq, Repr

/-- One whole host bus access that the platform routed to the unit, as the bus transaction
`(R|W, offset, size, data)` of 30_encoding.md R91. `data` is used by a write only. No master is named: the
unit does not identify masters (60_exceptions.md R209, R212). -/
structure Access where
  kind : AccessKind
  off : Nat
  size : Nat
  data : Word
deriving DecidableEq, Repr

/-- What the bus carries back to the master after an access. -/
inductive Response where
  /-- A legal read, with the value of 20_memory.md R57. -/
  | readOk (v : Word)
  /-- A legal write. -/
  | writeOk
  /-- An error response: `raise BusError(off, n, kind)` of R55. -/
  | busError (off size : Nat) (kind : AccessKind)
deriving DecidableEq, Repr

/-- Whose step comes next (00_scope.md R12): a host access, the unit's own step (a completion, enabled only
while BUSY = 1), or a reset. -/
inductive Turn where
  | host (a : Access)
  | unit
  | reset
deriving DecidableEq, Repr

/-- DIGBUF as (index, byte) cells, indexes strictly rising below 128 and no byte 0x00 listed: an unlisted index
reads 0x00, its reset value (10_state.md R34, R40). -/
abbrev Memory := List Host.Cell

/-- The unit's state: the fields of 10_state.md R42, under their names there, and no other. -/
structure UnitState where
  /-- CTRL.IE (R21). -/
  ie : Bool
  /-- STATUS.BUSY (R23). -/
  busy : Bool
  /-- STATUS.DONE (R24). -/
  done : Bool
  /-- STATUS.INVAL (R25). -/
  inval : Bool
  /-- STATUS.ILLOP (R26). -/
  illop : Bool
  /-- STATUS.CBUSY (R27). -/
  cbusy : Bool
  /-- `cmd_last`, what CMD reads (R28). -/
  cmdLast : Word
  /-- OPA (R29). -/
  opa : Word
  /-- OPB (R30). -/
  opb : Word
  /-- OPC (R31). -/
  opc : Word
  /-- RES0 (R32). -/
  res0 : Word
  /-- RES1 (R33). -/
  res1 : Word
  /-- DIGBUF[0] to DIGBUF[127] (R34). -/
  digbuf : Memory
  /-- `lat.op` (R36). -/
  latOp : BitVec 4
  /-- `lat.a` (R36). -/
  latA : Word
  /-- `lat.b` (R36). -/
  latB : Word
  /-- `lat.c` (R36). -/
  latC : Word
deriving DecidableEq, Repr

/-- The state of the machine: the unit's state, which is R42's whole and nothing else, and the two sides of its
interface, which are no state of the unit. A step is a function of the state alone, so what the outside world does next (the
steps of R12) and what the bus has carried back stand beside the unit (assumptions 1 and 2). -/
structure State extends UnitState where
  /-- The model's own: whose steps come next, in order (assumption 1). -/
  turns : List Turn
  /-- The model's own: the response to the last access (assumption 2). -/
  response : Option Response
deriving DecidableEq, Repr

/-- The reset state: every piece of state 0 (10_state.md R40, 70_reset_and_hazards.md R240), no step scheduled and no
access answered yet. -/
def State.reset : State where
  ie := false
  busy := false
  done := false
  inval := false
  illop := false
  cbusy := false
  cmdLast := 0
  opa := 0
  opb := 0
  opc := 0
  res0 := 0
  res1 := 0
  digbuf := []
  latOp := 0
  latA := 0
  latB := 0
  latC := 0
  turns := []
  response := none

/-- Why the machine stops. The spec has no stop ("No behaviour of the unit is stuck",
93_implementation_defined.md); a bus error is a response, not a stop. -/
inductive Fault where
  /-- Raised by the unit's own step alone, in a state with BUSY = 1 whose `lat.op` is none of the six opcodes. No
  reachable state is such (10_state.md R41, 40_command.md R103), and R104 gives no result there. Safe: nothing is
  proved of a step the unit cannot take. -/
  | unassignedOpcodeLatched
deriving DecidableEq, Repr

/-- Why the model gives no meaning. -/
inductive Refusal where
  /-- A command without a meaning in this model, by its mnemonic. Raised by a refused arm of `exec` only; there is none. Safe. -/
  | notModelled (mnemonic : String)
deriving DecidableEq, Repr

/-- What one step answers. -/
abbrev Result := Host.Outcome State Fault Refusal

end Sys2Proof.Machine
end

