-- ==== Sys2Proof/Machine/Flags.lean ====
section
/-! DEFINITION. CTRL and STATUS as words, the flags a STATUS write clears, and the interrupt output
(10_state.md R21 to R27, R39; 20_memory.md R58). -/

namespace Sys2Proof.Machine

/-- The word with bit `i` equal to `b` and every other bit 0. -/
def bitAt (b : Bool) (i : Nat) : Word := if b then 1#64 <<< i else 0#64

/-- `x[CTRL]`: IE in bit 0, other bits 0 (R21, R57). -/
def ctrlWord (s : State) : Word := bitAt s.ie 0

/-- `x[STATUS]`: BUSY, DONE, INVAL, ILLOP, CBUSY in bits 0 to 4, other bits 0 (R22). -/
def statusWord (s : State) : Word :=
  bitAt s.busy 0 ||| bitAt s.done 1 ||| bitAt s.inval 2 ||| bitAt s.illop 3 ||| bitAt s.cbusy 4

/-- A STATUS write of the (masked) word `w`: each 1 in bits 1, 3 or 4 clears DONE, ILLOP or CBUSY; every other bit is ignored
(R22; 20_memory.md R58). -/
def clearFlags (w : Word) (s : State) : State :=
  { s with
    done := s.done && !w.getLsbD 1
    illop := s.illop && !w.getLsbD 3
    cbusy := s.cbusy && !w.getLsbD 4 }

/-- The level interrupt output, `IE & (DONE | ILLOP | CBUSY)` (R39). -/
def irq (s : State) : Bool := s.ie && (s.done || s.illop || s.cbusy)

end Sys2Proof.Machine
end

