-- ==== Sys2Proof/Config.lean ====
section
/-! DEFINITION. What one implementation fixes: the constants of spec/00_scope.md R6 and R7, and the
open parameter UNIT_BASE of R8. The two other open parameters need no constant here: LAT is an argument of
`Machine.clockCycle` (the untimed step admits every LAT, 40_command.md R106), and IRQ_LINE is the
platform's wiring of `irq` (60_exceptions.md R202). -/

namespace Sys2Proof.Config

/-- Size of the register window in bytes (R7). -/
def windowBytes : Nat := 256

/-- `DIGBUF_BYTES` (R7). -/
def digbufBytes : Nat := 128

/-- Iterations of the square-root loop for ISQRT (R6). -/
def isqrtIterations : Nat := 32

/-- Iterations of the square-root loop for SQRTQ32 and PSQRT (R6). -/
def q32Iterations : Nat := 64

/-- Fraction bits of the Q32 split (R6). -/
def q32FractionBits : Nat := 32

/-- The largest exponent `bits` of a modulus `2^bits`, and the largest count of fraction bits FRND
takes (R6; 41_sqrt.md R131). -/
def maxBits : Nat := 64

/-- The free part of UNIT_BASE: no value is known (R8, assumption 3). -/
opaque unitBasePage : Nat

/-- `UNIT_BASE`, the bus address of offset 0: any multiple of 256 (R8). -/
def unitBase : Nat := windowBytes * unitBasePage

end Sys2Proof.Config
end

