-- ==== Sys2Proof/Machine/Operands.lean ====
section
/-! DEFINITION. The operand forms of the commands (30_encoding.md R84), all taken from the latches captured at
acceptance (40_command.md R103), and the bit counts the spec's notation names (00_scope.md R10). -/

namespace Sys2Proof.Machine

/-- `v mod 2^n`, the low `n` bits (00_scope.md R10, R14 "masked"). -/
def lowBits (v : Word) (n : Nat) : Word := BitVec.ofNat 64 (v.toNat % 2 ^ n)

/-- The index of the highest set bit at or below `i`. -/
def highestBitFrom (v : Word) : Nat → Nat
  | 0 => 0
  | i + 1 => if v.getLsbD (i + 1) then i + 1 else highestBitFrom v i

/-- `clz64(v)` for `v != 0` (00_scope.md R10); no definition of the model uses it at 0 (41_sqrt.md R121). -/
def clz64 (v : Word) : Nat := 63 - highestBitFrom v 63

/-- The index of the lowest set bit at or above `i`, looking at `fuel` bits. -/
def lowestBitFrom (v : Word) : Nat → Nat → Nat
  | 0, i => i
  | fuel + 1, i => if v.getLsbD i then i else lowestBitFrom v fuel (i + 1)

/-- `ctz(v)` for `v > 0` (00_scope.md R10). -/
def ctz64 (v : Word) : Nat := lowestBitFrom v 64 0

/-- `x`, the operand of the square-root commands and of MINV and MINVC: `lat.a` (R84, R123, R160). -/
def State.operandX (s : State) : Word := s.latA

/-- FRND's `value`: `lat.a` (R128). -/
def State.operandValue (s : State) : Word := s.latA

/-- FRND's `fraction_bits`: `lat.b`, unsigned (R128). -/
def State.operandFractionBits (s : State) : Nat := s.latB.toNat

/-- FRND's `capacity` in bytes, the terminator included: `lat.c`, unsigned (R128). -/
def State.operandCapacity (s : State) : Nat := s.latC.toNat

/-- `bits`, the exponent of the modulus of MINV and MINVC: `lat.b`, unsigned (42_modinv.md R160). -/
def State.operandBits (s : State) : Nat := s.latB.toNat

/-- FRND's effective capacity, `min(cap, 128)` (41_sqrt.md R128). -/
def effectiveCapacity (cap : Nat) : Nat := min cap Config.digbufBytes

/-- `valid(x, bits)` of 42_modinv.md R160. -/
def validModulus (x : Word) (bits : Nat) : Bool :=
  decide (1 ≤ bits) && decide (bits ≤ Config.maxBits) && decide (x.toNat % 2 ^ bits % 2 = 1)

end Sys2Proof.Machine
end

