-- ==== Sys2Proof/Machine/Ops.lean ====
section
/-! DEFINITION. The shared operations: DIGBUF, the register window, host accesses and their error response, delivering
and accepting a command word, completion, and reset (20_memory.md R50 to R61, 40_command.md R100 to R105,
70_reset_and_hazards.md R240). The unit takes no exception and returns from none (60_exceptions.md R200, R206): its two ways
of reporting an error are the error response (`errorResponse`) and the flags. -/

namespace Sys2Proof.Machine

/-! ### DIGBUF -/

/-- `DIGBUF[i]`: an unlisted index reads 0x00 (10_state.md R34, R40). -/
def Memory.read : Memory → Nat → Byte
  | [], _ => 0#8
  | (k, b) :: rest, i => if k = i then b else Memory.read rest i

/-- `DIGBUF[i] <- b`, in canonical form: writing 0x00 removes the cell. -/
def Memory.write : Memory → Nat → Byte → Memory
  | [], i, b => if b = 0#8 then [] else [(i, b)]
  | (k, c) :: rest, i, b =>
    if i < k then (if b = 0#8 then (k, c) :: rest else (i, b) :: (k, c) :: rest)
    else if i = k then (if b = 0#8 then rest else (i, b) :: rest)
    else (k, c) :: Memory.write rest i b

/-- The canonical form from index `lo` on: indexes rising and below 128, no byte 0x00 listed. -/
def Memory.wfFrom : Nat → Memory → Bool
  | _, [] => true
  | lo, (k, b) :: rest =>
    decide (lo ≤ k) && decide (k < Config.digbufBytes) && (b != 0#8) && Memory.wfFrom (k + 1) rest

/-- DIGBUF is in its canonical form. -/
def Memory.wf (m : Memory) : Bool := Memory.wfFrom 0 m

/-- The sum over `j` in `0..7` of `DIGBUF[i + j] << (8*j)` (20_memory.md R57). -/
def Memory.readWord (m : Memory) (i : Nat) : Word :=
  wordOfBytes ((List.range 8).map fun j => Memory.read m (i + j))

/-! ### The register window -/

/-- What stands at an offset of the window (10_state.md R20). -/
inductive WindowReg where
  | ctrl | status | cmd | opa | opb | opc | res0 | res1
  /-- Offsets 0x40 to 0x7F (R35). -/
  | reserved
  /-- The eight bytes of DIGBUF from index `i` on (R34). -/
  | digits (i : Nat)
deriving DecidableEq, Repr

/-- The register an access at `off` touches: the one at `off & 0xF8` (20_memory.md R52). -/
def windowReg (off : Nat) : WindowReg :=
  let base := off &&& 0xF8
  if base = 0x00 then .ctrl
  else if base = 0x08 then .status
  else if base = 0x10 then .cmd
  else if base = 0x18 then .opa
  else if base = 0x20 then .opb
  else if base = 0x28 then .opc
  else if base = 0x30 then .res0
  else if base = 0x38 then .res1
  else if base < 0x80 then .reserved
  else .digits (base - 0x80)

/-- The shift of an access inside its register, `8 * (off & 7)` (R57, R58). -/
def byteShift (off : Nat) : Nat := 8 * (off &&& 7)

/-- The 64-bit value a read of a register sees (R57). -/
def readReg (s : State) : WindowReg → Word
  | .ctrl => ctrlWord s
  | .status => statusWord s
  | .cmd => s.cmdLast
  | .opa => s.opa
  | .opb => s.opb
  | .opc => s.opc
  | .res0 => s.res0
  | .res1 => s.res1
  | .reserved => 0
  | .digits i => s.digbuf.readWord i

/-- `read_value(off, n)` (R57). -/
def readValue (s : State) (off n : Nat) : Word :=
  lowBits (readReg s (windowReg off) >>> byteShift off) (8 * n)

/-- One byte of the window as a 1-byte read sees it (R57, R60). -/
def windowByte (s : State) (off : Nat) : Byte := (readValue s off 1).setWidth 8

/-- `m` of R58: ones in the bits a write of `n` bytes at `off` touches. -/
def writeMask (off n : Nat) : Word := BitVec.ofNat 64 (2 ^ (8 * n) - 1) <<< byteShift off

/-- `w` of R58: the written value in its place, other bits 0. -/
def writtenBits (off n : Nat) (v : Word) : Word := (v <<< byteShift off) &&& writeMask off n

/-- `(old & ~m) | w` of R58. -/
def mergeWrite (old : Word) (off n : Nat) (v : Word) : Word :=
  (old &&& ~~~(writeMask off n)) ||| writtenBits off n v

/-! ### Delivering a command word -/

/-- `accept(op, w)` (40_command.md R103). -/
def accept (w : Word) (s : State) : State :=
  { s with
    latOp := opField w
    latA := s.opa
    latB := s.opb
    latC := s.opc
    cmdLast := w
    busy := true
    done := false }

/-- `command_write(w)` (40_command.md R100): dropped with CBUSY while busy (R101), dropped with ILLOP when
illegal (R102), accepted otherwise (R103). -/
def commandWrite (w : Word) (s : State) : State :=
  if s.busy then { s with cbusy := true }
  else match decode w with
    | .illegal _ => { s with illop := true }
    | .command _ => accept w s

/-- `write_effect(off, n, v)` (20_memory.md R58). A write at CMD delivers the written `n`-byte value, zero-extended, and only
when it reaches bit 0 (30_encoding.md R83). -/
def writeEffect (off n : Nat) (v : Word) (s : State) : State :=
  match windowReg off with
  | .ctrl => { s with ie := (mergeWrite (ctrlWord s) off n v).getLsbD 0 }
  | .status => clearFlags (writtenBits off n v) s
  | .cmd => if byteShift off = 0 then commandWrite (lowBits v (8 * n)) s else s
  | .opa => { s with opa := mergeWrite s.opa off n v }
  | .opb => { s with opb := mergeWrite s.opb off n v }
  | .opc => { s with opc := mergeWrite s.opc off n v }
  | .res0 => s
  | .res1 => s
  | .reserved => s
  | .digits _ => s

/-! ### Host accesses -/

/-- The sizes an access may have: 1, 2, 4, 8 for a read (20_memory.md R53), 4, 8 for a write (R54). -/
def AccessKind.sizes : AccessKind → List Nat
  | .read => [1, 2, 4, 8]
  | .write => [4, 8]

/-- An access is legal: a size of its kind, naturally aligned, inside the window (R53, R54). -/
def Access.legal (a : Access) : Bool :=
  a.kind.sizes.contains a.size && decide (a.off % a.size = 0)
    && decide (a.off + a.size ≤ Config.windowBytes)

/-- `raise BusError(off, n, kind)`: an error response and nothing else (R55, R56). -/
def errorResponse (a : Access) (s : State) : State :=
  { s with response := some (.busError a.off a.size a.kind) }

/-- `access(kind, off, n, v)` (R55). -/
def access (a : Access) (s : State) : State :=
  if a.legal then
    match a.kind with
    | .read => { s with response := some (.readOk (readValue s a.off a.size)) }
    | .write => { writeEffect a.off a.size a.data s with response := some .writeOk }
  else errorResponse a s

/-- The data on the bus after a response: a read with an error response returns 0 (R56), and a write
returns none. -/
def Response.readData : Response → Word
  | .readOk v => v
  | .writeOk => 0
  | .busError _ _ _ => 0

/-- The data of the last access, 0 before the first. -/
def State.busData (s : State) : Word :=
  match s.response with
  | some r => r.readData
  | none => 0

/-- Address decode (R52): the offset at which a bus address reaches the unit placed at `base`; the interconnect
routes every other address elsewhere. -/
def windowOffset (base addr : Nat) : Option Nat :=
  if base ≤ addr ∧ addr ≤ base + 0xFF then some (addr - base) else none

/-- `MemRead(addr, n)` as the unit at `base` meets it (00_scope.md R11). -/
def memRead (base addr n : Nat) : Option Turn :=
  (windowOffset base addr).map fun off => .host ⟨.read, off, n, 0⟩

/-- `MemWrite(addr, n, v)` as the unit at `base` meets it (00_scope.md R11). -/
def memWrite (base addr n : Nat) (v : Word) : Option Turn :=
  (windowOffset base addr).map fun off => .host ⟨.write, off, n, v⟩

/-! ### Completion and reset -/

/-- What `Exec` answers (40_command.md R104): the two results, the invalid flag and, for FRND only, the 128
bytes of DIGBUF. -/
structure CommandResult where
  res0 : Word
  res1 : Word
  inval : Bool
  dig : Option Memory
deriving DecidableEq, Repr

/-- `complete()` (40_command.md R105), all of it in one step. -/
def complete (c : CommandResult) (s : State) : State :=
  { s with
    res0 := c.res0
    res1 := c.res1
    inval := c.inval
    digbuf := c.dig.getD s.digbuf
    busy := false
    done := true }

/-- The command in flight, from the opcode latched at acceptance (R103, R105). -/
def State.inFlight (s : State) : Decoded := decodeOp s.latOp

/-- A reset (70_reset_and_hazards.md R240): every piece of the unit's state takes its reset value, a command in
flight is abandoned, and what the outside world does next stands. -/
def applyReset (s : State) : State := { State.reset with turns := s.turns }

end Sys2Proof.Machine
end

