-- ==== Sys2Proof/Machine/Fraction.lean ====
section
/-! DEFINITION. The fraction renderer FRND (41_sqrt.md R128 to R133). -/

namespace Sys2Proof.Machine

/-- The working registers of FRND (41_sqrt.md R128): the digit index, the fraction left, the digits so far. -/
structure FrndRegs where
  n : Nat
  frac : Word
  dig : Memory
deriving DecidableEq, Repr

/-- `frac * 10` without a multiplier, in 68 bits (R133). -/
def timesTen (frac : Word) : BitVec 68 := (frac.setWidth 68 <<< 3) + (frac.setWidth 68 <<< 1)

/-- The ASCII code of the digit `t >> fb` (R128, R130). -/
def digitByte (t : BitVec 68) (fb : Nat) : Byte := 0x30 + (t >>> fb).setWidth 8

/-- One pass of the digit loop (R128). -/
def frndIter (fb : Nat) (q : FrndRegs) : FrndRegs :=
  let t := timesTen q.frac
  { n := q.n + 1
    frac := BitVec.ofNat 64 (t.toNat % 2 ^ fb)
    dig := q.dig.write q.n (digitByte t fb) }

/-- `while n + 1 < capE and frac != 0` (R128); `n` rises by one a pass, so `capE` passes of fuel never run out. -/
def frndLoop (fb capE : Nat) : Nat → FrndRegs → FrndRegs
  | 0, q => q
  | fuel + 1, q =>
    if q.n + 1 < capE ∧ q.frac ≠ 0 then frndLoop fb capE fuel (frndIter fb q) else q

/-- The digit loop run to its end from the fractional part of `value` (R128, R129), all of `dig` 0x00 before it (R130). -/
def frndRun (value : Word) (fb cap : Nat) : FrndRegs :=
  frndLoop fb (effectiveCapacity cap) (effectiveCapacity cap) ⟨0, lowBits value fb, []⟩

/-- FRND's results (R128); more than 64 fraction bits give zeros and INVAL (R131). -/
def frndResult (value : Word) (fb cap : Nat) : CommandResult :=
  if Config.maxBits < fb then { res0 := 0, res1 := 0, inval := true, dig := some [] }
  else
    let q := frndRun value fb cap
    { res0 := BitVec.ofNat 64 q.n, res1 := q.frac, inval := false, dig := some q.dig }

/-- FRND completes (R128; 40_command.md R105). -/
def execFrnd (s : State) : Result :=
  .next (complete (frndResult s.operandValue s.operandFractionBits s.operandCapacity) s)

end Sys2Proof.Machine
end

