-- ==== Sys2Proof/Machine/ModInv.lean ====
section
/-! DEFINITION. The modular-inverse commands MINV and MINVC (42_modinv.md R160 to R166). -/

namespace Sys2Proof.Machine

/-- The working registers of the bit-lifting correction (42_modinv.md R161). -/
structure LiftRegs where
  result : Word
  state : Word
deriving DecidableEq, Repr

/-- One pass of `BitLift` (R161): set the lowest bit where `state` and 1 differ in `result`, and add `xm << c` into
`state`, masked to `bits` bits. -/
def liftIter (xm : Word) (bits : Nat) (q : LiftRegs) : LiftRegs :=
  let c := ctz64 (q.state ^^^ 1)
  { result := q.result ||| (1#64 <<< c), state := lowBits (q.state + (xm <<< c)) bits }

/-- `while state != 1`, for at most the given number of passes (R161, R166). -/
def liftLoop (xm : Word) (bits : Nat) : Nat → LiftRegs → LiftRegs
  | 0, q => q
  | fuel + 1, q => if q.state = 1 then q else liftLoop xm bits fuel (liftIter xm bits q)

/-- The registers before the first pass (R161). -/
def liftStart (xm : Word) : LiftRegs := ⟨1, xm⟩

/-- `BitLift(xm, bits)` (R161): the loop ends within `bits - 1` passes (R166). -/
def bitLift (xm : Word) (bits : Nat) : Word := (liftLoop xm bits bits (liftStart xm)).result

/-- The exact 128-bit product `p = y * xm` (R163, R164). -/
def exactProduct (y xm : Word) : BitVec 128 := y.setWidth 128 * xm.setWidth 128

/-- The reference datapath of R164: four 32 by 32 bit partial products with carry propagation. -/
def partialProducts (y xm : Word) : Nat :=
  let m := 2 ^ 32
  let ll := y.toNat % m * (xm.toNat % m)
  let lh := y.toNat % m * (xm.toNat / m)
  let hl := y.toNat / m * (xm.toNat % m)
  let hh := y.toNat / m * (xm.toNat / m)
  let mid := ll / m + lh % m + hl % m
  let lo := ll % m + mid % m * m
  let hi := hh + lh / m + hl / m + mid / m
  hi * 2 ^ 64 + lo

/-- The degenerate result of invalid arguments: (0, 0) and INVAL (R162, R163; 40_command.md R112). -/
def invalidModulusResult : CommandResult := { res0 := 0, res1 := 0, inval := true, dig := none }

/-- MINV's results (R162). -/
def minvResult (x : Word) (bits : Nat) : CommandResult :=
  if validModulus x bits then
    { res0 := bitLift (lowBits x bits) bits, res1 := 0, inval := false, dig := none }
  else invalidModulusResult

/-- MINVC's results (R163): the companion is taken from the masked operand. -/
def minvcResult (x : Word) (bits : Nat) : CommandResult :=
  if validModulus x bits then
    let xm := lowBits x bits
    let y := bitLift xm bits
    { res0 := y, res1 := (exactProduct y xm >>> bits).setWidth 64, inval := false, dig := none }
  else invalidModulusResult

/-- MINV completes (R162; 40_command.md R105). -/
def execMinv (s : State) : Result := .next (complete (minvResult s.operandX s.operandBits) s)

/-- MINVC completes (R163). -/
def execMinvc (s : State) : Result := .next (complete (minvcResult s.operandX s.operandBits) s)

end Sys2Proof.Machine
end

