-- ==== Sys2Proof/Machine/Sqrt.lean ====
section
/-! DEFINITION. The square-root commands ISQRT, SQRTQ32 and PSQRT over the restoring datapath (41_sqrt.md
R120 to R126). -/

namespace Sys2Proof.Machine

/-- The working registers of the restoring square root (41_sqrt.md R120): the accumulator `a` and the shifted operand
`xs` in 64 bits, the remainder `r` in 66. -/
structure SqrtRegs where
  a : BitVec 64
  r : BitVec 66
  xs : BitVec 64
deriving DecidableEq, Repr

/-- One iteration of `SqrtCore` (R120); the trial value `e = 2*a + 1` is 66 bits wide. -/
def sqrtIter (q : SqrtRegs) : SqrtRegs :=
  let r : BitVec 66 := (q.r <<< 2) ||| (q.xs >>> 62).setWidth 66
  let a : BitVec 64 := q.a <<< 1
  let e : BitVec 66 := (a.setWidth 66 <<< 1) + 1#66
  if e ≤ r then ⟨a + 1#64, r - e, q.xs <<< 2⟩ else ⟨a, r, q.xs <<< 2⟩

/-- `n` iterations. -/
def sqrtLoop : Nat → SqrtRegs → SqrtRegs
  | 0, q => q
  | n + 1, q => sqrtLoop n (sqrtIter q)

/-- `lead`: half the leading zeros of a nonzero operand when normalising, else 0 (R121). -/
def sqrtLead (x : Word) (normalize : Bool) : Nat :=
  if normalize && x != 0 then clz64 x / 2 else 0

/-- The registers before the first iteration: `a` and `r` 0, the operand shifted left by `2*lead` (R120). -/
def sqrtStart (x : Word) (normalize : Bool) : SqrtRegs :=
  ⟨0, 0, x <<< (2 * sqrtLead x normalize)⟩

/-- `SqrtCore(x, normalize, n)` (R120), with its final registers. -/
def sqrtCore (x : Word) (normalize : Bool) (n : Nat) : SqrtRegs :=
  sqrtLoop n (sqrtStart x normalize)

/-- ISQRT's results (R123). -/
def isqrtResult (x : Word) : CommandResult :=
  { res0 := (sqrtCore x false Config.isqrtIterations).a, res1 := 0, inval := false, dig := none }

/-- SQRTQ32's results (R124). -/
def sqrtq32Result (x : Word) : CommandResult :=
  { res0 := (sqrtCore x false Config.q32Iterations).a
    res1 := BitVec.ofNat 64 Config.q32FractionBits
    inval := false
    dig := none }

/-- PSQRT's results (R125, R126). -/
def psqrtResult (x : Word) : CommandResult :=
  { res0 := (sqrtCore x true Config.q32Iterations).a
    res1 := BitVec.ofNat 64 (Config.q32FractionBits + sqrtLead x true)
    inval := false
    dig := none }

/-- ISQRT completes (R123; 40_command.md R105). -/
def execIsqrt (s : State) : Result := .next (complete (isqrtResult s.operandX) s)

/-- SQRTQ32 completes (R124). -/
def execSqrtq32 (s : State) : Result := .next (complete (sqrtq32Result s.operandX) s)

/-- PSQRT completes (R125). -/
def execPsqrt (s : State) : Result := .next (complete (psqrtResult s.operandX) s)

end Sys2Proof.Machine
end

