-- ==== Sys2Proof/Machine/Dispatch.lean ====
section
/-! DEFINITION. One arm per command: `exec i` is the unit's completion of command `i` (40_command.md R104, R105),
the step that has the command's effect. -/

namespace Sys2Proof.Machine

def exec (i : Instr) (s : State) : Host.Outcome State Fault Refusal :=
  match i with
  | .isqrt => Sys2Proof.Machine.execIsqrt s
  | .sqrtq32 => Sys2Proof.Machine.execSqrtq32 s
  | .psqrt => Sys2Proof.Machine.execPsqrt s
  | .frnd => Sys2Proof.Machine.execFrnd s
  | .minv => Sys2Proof.Machine.execMinv s
  | .minvc => Sys2Proof.Machine.execMinvc s

end Sys2Proof.Machine
end

