-- ==== Sys2Proof/Machine/Turns.lean ====
section
/-! DEFINITION. The steps of 00_scope.md R12 that `step` chooses among: the unit's own step, and placing a command
in flight. -/

namespace Sys2Proof.Machine

/-- The unit's own step (00_scope.md R12, 40_command.md R105): while BUSY = 1 it completes the command in flight; while BUSY
= 0 no completion is enabled and nothing changes (60_exceptions.md R214). -/
def unitStep (s : State) : Result :=
  if s.busy then
    match s.inFlight with
    | .command i => exec i s
    | .illegal _ => .fault .unassignedOpcodeLatched
  else .next s

/-- The step of one turn (R12). -/
def turnStep (t : Turn) (s : State) : Result :=
  match t with
  | .host a => .next (access a s)
  | .unit => unitStep s
  | .reset => .next (applyReset s)

/-- The state in which the very next step runs the command word `w` (assumption 4): a legal word stands accepted
(40_command.md R103) with the unit's step next; any other word is the next write at CMD. -/
def placeWord (w : Word) (s : State) : State :=
  match decode w with
  | .command _ => { accept w s with turns := .unit :: s.turns }
  | .illegal _ => { s with turns := .host ⟨.write, 0x10, 8, w⟩ :: s.turns }

end Sys2Proof.Machine
end

