-- ==== Sys2Proof/Machine/Step.lean ====
section
/-! DEFINITION. One step of the machine: the next scheduled turn, and the unit's own step when none is scheduled. -/

namespace Sys2Proof.Machine

/-- One step (00_scope.md R12): the first scheduled turn is taken off and runs; with none scheduled the unit is alone, so
a command in flight completes (the fairness of 40_command.md R106) and an idle unit stays as it is (60_exceptions.md R214). -/
def step (s : State) : Host.Outcome State Fault Refusal :=
  match s.turns with
  | [] => unitStep s
  | t :: rest => turnStep t { s with turns := rest }

/-- `s` with a row of spec/opcode_table.json placed so that the very next step runs it: the row's `nbits` bits of `w`, the
bits above them zero. -/
def State.withFetchWord (s : State) (nbits w : Nat) : State :=
  placeWord (BitVec.ofNat 64 (w % 2 ^ nbits)) s

end Sys2Proof.Machine
end

