-- ==== Sys2Proof/Machine/Clocked.lean ====
section
/-! DEFINITION. The unit against its clock, for a latency `LAT` given as an argument (00_scope.md R8, 40_command.md R106) and
at most one access a cycle. `step` does not use it: it says which turns of `step` a clocked unit takes, completion before
access within one cycle (60_exceptions.md R205). -/

namespace Sys2Proof.Machine

/-- `LAT(op, operands)`: clock cycles from acceptance to completion (R8). -/
abbrev Latency := BitVec 4 → Word → Word → Word → Nat

/-- The unit and the clock cycles left until the command in flight completes. -/
structure Clocked where
  unit : State
  left : Nat
deriving DecidableEq, Repr

/-- The command in flight completes in the coming cycle. -/
def Clocked.due (c : Clocked) : Bool := c.unit.busy && decide (c.left ≤ 1)

/-- The turns of one cycle: the completion first, then the access (R205). -/
def cycleTurns (a : Option Access) (c : Clocked) : List Turn :=
  (if c.due then [.unit] else []) ++ a.toList.map .host

/-- The access of one cycle, if there is one. -/
def cycleAccess (a : Option Access) (s : State) : State :=
  match a with
  | none => s
  | some a => access a s

/-- One clock cycle: an acceptance starts the count at `LAT` of the latched command (R103, R106). -/
def clockCycle (lat : Latency) (a : Option Access) (c : Clocked) :
    Host.Outcome Clocked Fault Refusal :=
  match (if c.due then unitStep c.unit else .next c.unit) with
  | .next u =>
    let v := cycleAccess a u
    let accepted := v.busy && !u.busy
    .next ⟨v, if accepted then lat v.latOp v.latA v.latB v.latC else c.left - 1⟩
  | .fault f => .fault f
  | .refused r => .refused r

/-- A cycle for each entry of a list, `none` where no access comes. -/
def clockCycles (lat : Latency) : List (Option Access) → Clocked →
    Host.Outcome Clocked Fault Refusal
  | [], c => .next c
  | a :: rest, c =>
    match clockCycle lat a c with
    | .next c' => clockCycles lat rest c'
    | .fault f => .fault f
    | .refused r => .refused r

end Sys2Proof.Machine
end

