-- ==== Sys2Proof/Machine/HostProgram.lean ====
section
/-! DEFINITION. The host-side notation of 30_encoding.md R89 to R91: a program of the host is a list of statements, each
one bus access or one step of host control flow. Host variables and branches belong to the host; the unit sees only the
accesses, so nothing here is state of the unit. -/

namespace Sys2Proof.Machine

/-- The offset a location name stands for (R89, 10_state.md R20); `DIGBUF+i` is `digits i`. -/
def WindowReg.offset : WindowReg → Nat
  | .ctrl => 0x00
  | .status => 0x08
  | .cmd => 0x10
  | .opa => 0x18
  | .opb => 0x20
  | .opc => 0x28
  | .res0 => 0x30
  | .res1 => 0x38
  | .reserved => 0x40
  | .digits i => 0x80 + i

/-- A stored value: a number, or a host variable (R89; the programs of 95_test_vectors.md store variables). -/
inductive HostValue where
  | lit (v : Word)
  | var (t : Nat)
deriving DecidableEq, Repr

/-- A statement (R89); a label is the index of its statement. -/
inductive HostStmt where
  /-- `stN LOC, V`. -/
  | st (size off : Nat) (v : HostValue)
  /-- `ldN LOC -> t`. -/
  | ld (size off t : Nat)
  /-- `bnz t & M, L`. -/
  | bnz (t : Nat) (mask : Word) (label : Nat)
  /-- `bz t & M, L`. -/
  | bz (t : Nat) (mask : Word) (label : Nat)
deriving DecidableEq, Repr

/-- A host program under way: its statements, the next one's index and its variables, the latest value first. -/
structure HostProcess where
  code : List HostStmt
  pc : Nat
  vars : List (Nat × Word)
deriving DecidableEq, Repr

/-- A host variable; one never loaded reads 0 (assumption 8). -/
def HostProcess.get (h : HostProcess) (t : Nat) : Word := (h.vars.lookup t).getD 0

/-- The value a statement stores. -/
def HostProcess.value (h : HostProcess) : HostValue → Word
  | .lit v => v
  | .var t => h.get t

/-- The bus transaction a statement issues (R91); branches issue none. -/
def HostProcess.transaction (h : HostProcess) : HostStmt → Option Access
  | .st size off v => some ⟨.write, off, size, h.value v⟩
  | .ld size off _ => some ⟨.read, off, size, 0⟩
  | .bnz _ _ _ => none
  | .bz _ _ _ => none

/-- What a statement does to the host once its access, if any, has been answered with `data` (R89). DESIGN CHOICE (assumption
17): after an error response too the host goes on to the next statement, and `ld` stores the data 0 that came back; the spec
leaves the host's reaction open (20_memory.md R56), and program P4 of 95_test_vectors.md runs so. -/
def HostProcess.advance (h : HostProcess) (data : Word) : HostStmt → HostProcess
  | .st _ _ _ => { h with pc := h.pc + 1 }
  | .ld _ _ t => { h with pc := h.pc + 1, vars := (t, data) :: h.vars }
  | .bnz t mask label => { h with pc := if h.get t &&& mask ≠ 0 then label else h.pc + 1 }
  | .bz t mask label => { h with pc := if h.get t &&& mask = 0 then label else h.pc + 1 }

/-- One statement of the program run against the unit; a program past its last statement has ended. An error response stops
no program: the host's reaction is the model's choice (DESIGN CHOICE, assumption 17). -/
def hostStep (h : HostProcess) (s : State) : HostProcess × State :=
  match h.code[h.pc]? with
  | none => (h, s)
  | some stmt =>
    match h.transaction stmt with
    | none => (h.advance 0 stmt, s)
    | some a => let s' := access a s; (h.advance s'.busData stmt, s')

/-- `issue MN` (R90). -/
def issueStmts (i : Instr) : List HostStmt := [.st 8 WindowReg.cmd.offset (.lit (encode i))]

/-- `wait`, standing at index `here` and polling through variable `t` (R90). -/
def waitStmts (here t : Nat) : List HostStmt := [.ld 8 WindowReg.status.offset t, .bnz t 0x1 here]

/-- `run MN`, standing at index `here` (R90). -/
def runStmts (i : Instr) (here t : Nat) : List HostStmt := issueStmts i ++ waitStmts (here + 1) t

/-- `ack` (R90): clears DONE, ILLOP and CBUSY. -/
def ackStmts : List HostStmt := [.st 8 WindowReg.status.offset (.lit 0x1A)]

/-- `setops A, B, C` (R90). -/
def setopsStmts (a b c : HostValue) : List HostStmt :=
  [.st 8 WindowReg.opa.offset a, .st 8 WindowReg.opb.offset b, .st 8 WindowReg.opc.offset c]

end Sys2Proof.Machine
end

