-- ==== Sys2Proof/Safety.lean ====
section
/-! DEFINITION. What counts as a safe run: the invariants of 10_state.md R41 with what they rest on, the shape of the
digit string, and reachability under every schedule of turns. -/

namespace Sys2Proof.Machine

/-- `lat.op` is one of the six opcodes (R103 latches only those). -/
def latchedOpcode (s : State) : Prop := 1 ≤ s.latOp.toNat ∧ s.latOp.toNat ≤ 6

/-- R41's first two invariants; the latch of a command in flight, which R103 writes together with `cmd_last`; and the
canonical form of DIGBUF. R41's third invariant is about a step, not a state: no host access changes a result. -/
structure State.Inv (s : State) : Prop where
  busy_not_done : s.busy = true → s.done = false
  cmdLast_le : s.cmdLast.toNat ≤ 6
  busy_latched : s.busy = true → latchedOpcode s ∧ s.cmdLast = s.latOp.setWidth 64
  digbuf_wf : s.digbuf.wf = true

/-- DIGBUF holds a NUL-terminated decimal digit string (10_state.md R34, 41_sqrt.md R130, R132): `n` ASCII digits, at most 64,
and 0x00 from there on. -/
def State.DigitString (s : State) : Prop :=
  ∃ n, n ≤ 64 ∧ (∀ k, k < n → 0x30#8 ≤ s.digbuf.read k ∧ s.digbuf.read k ≤ 0x39#8) ∧
    ∀ k, n ≤ k → s.digbuf.read k = 0

/-- `r` is `isqrt n`, the largest natural with `r*r <= n` (00_scope.md R10). -/
def IsIsqrt (n r : Nat) : Prop := r * r ≤ n ∧ n < (r + 1) * (r + 1)

/-- A state some run passes through: from the reset state under any schedule of turns (R12). -/
inductive State.Reachable : State → Prop where
  | start (turns : List Turn) : State.Reachable { State.reset with turns := turns }
  | next {s s' : State} : State.Reachable s → step s = .next s' → State.Reachable s'

/-! ### What the coming step is, for the rules that say which events change a register -/

/-- The access the coming step performs, if it is a host's. -/
def State.nextAccess (s : State) : Option Access :=
  match s.turns with
  | .host a :: _ => some a
  | _ => none

/-- The command word an access delivers (30_encoding.md R83): the value of a legal write at offset 0x10. -/
def deliveredWord (a : Access) : Option Word :=
  if a.legal && a.kind == .write && a.off == 0x10 then some (lowBits a.data (8 * a.size)) else none

/-- The command word the coming step delivers. -/
def State.nextDelivery (s : State) : Option Word := s.nextAccess.bind deliveredWord

/-- A word is one of the six legal ones (30_encoding.md R81, R87). -/
def legalWord (w : Word) : Bool := (decode w).toOption.isSome

/-- The word the coming step accepts (40_command.md R103). -/
def State.nextAcceptance (s : State) : Option Word :=
  if s.busy then none else s.nextDelivery.filter legalWord

/-- The coming step is a host's legal write of 1 to a bit (below 32) of STATUS (10_state.md R22, 20_memory.md R58). -/
def State.nextClears (s : State) (bit : Nat) : Bool :=
  match s.nextAccess with
  | some a => a.legal && a.kind == .write && a.off == 0x08 && a.data.getLsbD bit
  | none => false

/-- The coming step is a reset. -/
def State.nextResets (s : State) : Bool := s.turns.head? == some .reset

/-- The coming step completes the command in flight (00_scope.md R12). -/
def State.nextCompletes (s : State) : Bool :=
  s.busy && (s.turns.head? == none || s.turns.head? == some .unit)

end Sys2Proof.Machine
end

