-- ==== Sys2Proof/Certificates/Slice0/Obligations.lean ====
section
/-! DEFINITION. The statements for the provers, from the numbered rules of spec/ file by file. -/

open Sys2Proof Sys2Proof.Machine

/-! ### Encoding (30_encoding.md) -/

/-- R81's table, each word written out as the eight bytes of a write at CMD, and as a row of the opcode table; the
zero word and OP = 0x7 are reserved (R86). -/
def Obligations.OpcodeWordsDecode : Prop :=
  decodeBytes [0x01, 0, 0, 0, 0, 0, 0, 0] = .command .isqrt ∧
  decodeBytes [0x02, 0, 0, 0, 0, 0, 0, 0] = .command .sqrtq32 ∧
  decodeBytes [0x03, 0, 0, 0, 0, 0, 0, 0] = .command .psqrt ∧
  decodeBytes [0x04, 0, 0, 0, 0, 0, 0, 0] = .command .frnd ∧
  decodeBytes [0x05, 0, 0, 0, 0, 0, 0, 0] = .command .minv ∧
  decodeBytes [0x06, 0, 0, 0, 0, 0, 0, 0] = .command .minvc ∧
  decodeTableWord 64 0x6 = some .minvc ∧
  decodeTableWord 64 0x0 = none ∧ decodeTableWord 64 0x7 = none

/-- R87: `decode` on every 64-bit word. -/
def Obligations.DecodeOnEveryWord : Prop :=
  ∀ w : Word, (decode w).toOption =
    if w = 1 then some .isqrt else if w = 2 then some .sqrtq32 else if w = 3 then some .psqrt
    else if w = 4 then some .frnd else if w = 5 then some .minv else if w = 6 then some .minvc
    else none

/-- Decode and encode agree, both ways: the bytes that decode to a command are its eight bytes (R81, R83, R88) and
the four low ones, which a 4-byte write zero-extends (R83), and no others. -/
def Obligations.DecodeEncodeAgree : Prop :=
  ∀ (bs : List Byte) (i : Instr),
    decodeBytes bs = .command i ↔ bs = encodeBytes i ∨ bs = bytesOfWord 4 (encode i)

/-- R82 and R86: a word with a nonzero RSV, or with OP = 0x0 or 0x7 to 0xF, is illegal; idle it sets ILLOP and
changes nothing else, busy it is dropped with CBUSY. -/
def Obligations.IllegalWordsAreDropped : Prop :=
  ∀ (w : Word) (s : State),
    (w.toNat / 16 ≠ 0 ∨ w.toNat % 16 = 0 ∨ 7 ≤ w.toNat % 16) →
      (decode w).toOption = none ∧
      (s.busy = false → commandWrite w s = { s with illop := true }) ∧
      (s.busy = true → commandWrite w s = { s with cbusy := true })

/-! ### Command protocol (40_command.md) -/

/-- R101: any word delivered while BUSY is 1 sets CBUSY and changes nothing else. -/
def Obligations.BusyWordIsDropped : Prop :=
  ∀ (w : Word) (s : State), s.busy = true → commandWrite w s = { s with cbusy := true }

/-- R103: a legal word delivered while BUSY is 0 latches OP and the operands, is recorded in `cmd_last`, sets BUSY and
clears DONE, and changes nothing else. -/
def Obligations.LegalWordIsAccepted : Prop :=
  ∀ (i : Instr) (s : State), s.busy = false →
    commandWrite (encode i) s =
      { s with
        latOp := BitVec.ofNat 4 (encode i).toNat, latA := s.opa, latB := s.opb, latC := s.opc
        cmdLast := encode i, busy := true, done := false }

/-- R83: an 8-byte write at 0x10 delivers its value, a 4-byte write at 0x10 its low 32 bits zero-extended, and a
4-byte write at 0x14 nothing. -/
def Obligations.WritesDeliverCommandWords : Prop :=
  ∀ (v : Word) (s : State),
    access ⟨.write, 0x10, 8, v⟩ s = { commandWrite v s with response := some .writeOk } ∧
    access ⟨.write, 0x10, 4, v⟩ s =
      { commandWrite (BitVec.ofNat 64 (v.toNat % 2 ^ 32)) s with response := some .writeOk } ∧
    access ⟨.write, 0x14, 4, v⟩ s = { s with response := some .writeOk }

/-- A step runs the command in flight (R12, R104, R105): with BUSY = 1 and a command's opcode latched, the unit's
scheduled step is that command's `exec`. That the unit steps, and so runs it, when nothing is scheduled is the model's
choice (assumption 1). -/
def Obligations.StepRunsCommandInFlight : Prop :=
  ∀ (s : State) (i : Instr) (rest : List Turn),
    s.busy = true → s.latOp = BitVec.ofNat 4 (encode i).toNat →
      (s.turns = [] → step s = exec i s) ∧
      (s.turns = .unit :: rest → step s = exec i { s with turns := rest })

/-- The very next step after a table row's word is placed is that command's `exec` on the state its acceptance (R103)
leaves. The placing is the model's choice (assumption 4). -/
def Obligations.PlacedWordRuns : Prop :=
  ∀ (s : State) (i : Instr),
    step (s.withFetchWord 64 (encode i).toNat) =
      exec i { accept (encode i) s with turns := s.turns }

/-- Issue, then complete (R103, R105): the host's write is one step that only accepts, and the unit's next step is the
command's `exec` on the operands the write latched. -/
def Obligations.IssueThenComplete : Prop :=
  ∀ (s : State) (i : Instr) (rest : List Turn),
    s.busy = false → s.turns = .host ⟨.write, 0x10, 8, encode i⟩ :: .unit :: rest →
      ∃ t, step s = .next t ∧ t.busy = true ∧
        t = { s with
              turns := .unit :: rest, response := some .writeOk, cmdLast := encode i
              latOp := BitVec.ofNat 4 (encode i).toNat
              latA := s.opa, latB := s.opb, latC := s.opc, busy := true, done := false } ∧
        step t = exec i { t with turns := rest }

/-- R104 and R105: a command's results are one function of the latched operands, present for DIGBUF exactly for FRND, and
completion writes them, clears BUSY, sets DONE and changes nothing else. -/
def Obligations.ResultsComeFromLatches : Prop :=
  ∀ (i : Instr) (a b c : Word), ∃ r : CommandResult, (r.dig.isSome = true ↔ i = .frnd) ∧
    ∀ s : State, s.latA = a → s.latB = b → s.latC = c →
      exec i s = .next
        { s with
          res0 := r.res0, res1 := r.res1, inval := r.inval, digbuf := r.dig.getD s.digbuf
          busy := false, done := true }

/-- R107 and R108 (R107 is the spec's own inference): no access while a command is in flight changes the command, its
latched operands or its results. -/
def Obligations.AccessKeepsCommandInFlight : Prop :=
  ∀ (s : State) (a : Access) (i : Instr), s.busy = true →
    (access a s).busy = true ∧ (access a s).inFlight = s.inFlight ∧
    ∃ t u, exec i s = .next t ∧ exec i (access a s) = .next u ∧
      u.res0 = t.res0 ∧ u.res1 = t.res1 ∧ u.inval = t.inval ∧ u.digbuf = t.digbuf

/-! ### Host accesses (20_memory.md) -/

/-- R53 and R54: exactly these reads and writes are legal, and every other access gets an error response. -/
def Obligations.LegalAccessesExactly : Prop :=
  ∀ (off n : Nat) (v : Word) (s : State),
    ((access ⟨.read, off, n, v⟩ s).response = some (.busError off n .read) ↔
      ¬ ((n = 1 ∨ n = 2 ∨ n = 4 ∨ n = 8) ∧ off % n = 0 ∧ off + n ≤ 256)) ∧
    ((access ⟨.write, off, n, v⟩ s).response = some (.busError off n .write) ↔
      ¬ ((n = 4 ∨ n = 8) ∧ off % n = 0 ∧ off + n ≤ 256))

/-- R56: an access that gets an error response changes no state of the unit and not `irq`, and a read returns 0. -/
def Obligations.ErrorResponseChangesNothing : Prop :=
  ∀ (a : Access) (s : State), a.legal = false →
    access a s = { s with response := some (.busError a.off a.size a.kind) } ∧
    irq (access a s) = irq s ∧ (access a s).busData = 0

/-- R57 on whole registers: what an 8-byte read at each offset of the map returns, reading nothing but (R59). -/
def Obligations.WholeRegisterReads : Prop :=
  ∀ (s : State) (v : Word),
    (∀ off, off % 8 = 0 → off < 256 →
      ∃ d, access ⟨.read, off, 8, v⟩ s = { s with response := some (.readOk d) } ∧
        (off = 0x00 → d.toNat = s.ie.toNat) ∧
        (off = 0x08 → d.toNat = s.busy.toNat + 2 * s.done.toNat + 4 * s.inval.toNat
          + 8 * s.illop.toNat + 16 * s.cbusy.toNat) ∧
        (off = 0x10 → d = s.cmdLast) ∧
        (off = 0x18 → d = s.opa) ∧ (off = 0x20 → d = s.opb) ∧ (off = 0x28 → d = s.opc) ∧
        (off = 0x30 → d = s.res0) ∧ (off = 0x38 → d = s.res1) ∧
        (0x40 ≤ off → off < 0x80 → d = 0) ∧
        (0x80 ≤ off → ∀ j, j < 8 → (d >>> (8 * j)).setWidth 8 = s.digbuf.read (off - 0x80 + j)))

/-- R57, R59, R60 and R61 (R61 is the spec's own inference): a legal read of any size changes nothing but the bus response, it
returns the same little-endian register bytes an 8-byte read of that register does, and a 1-byte read at 0x80 + i returns
`DIGBUF[i]`. -/
def Obligations.NarrowReadsAreSlices : Prop :=
  ∀ s : State,
    (∀ (off n : Nat) (v : Word), (⟨.read, off, n, v⟩ : Access).legal = true →
      ∃ d, access ⟨.read, off, n, v⟩ s = { s with response := some (.readOk d) } ∧
        ∀ j, d.getLsbD j =
          (decide (j < 8 * n) &&
            (access ⟨.read, off - off % 8, 8, v⟩ s).busData.getLsbD (8 * (off % 8) + j))) ∧
    (∀ i, i < 128 →
      (access ⟨.read, 0x80 + i, 1, 0⟩ s).busData = (s.digbuf.read i).setWidth 64)

/-- R58 on OPA, OPB and OPC (R29 to R31): a write of 4 or 8 bytes replaces the bits it touches by the written ones, keeps the others,
and changes only that register. -/
def Obligations.OperandWritesMergeBytes : Prop :=
  ∀ (s : State) (v : Word) (n k : Nat), (n = 8 ∧ k = 0) ∨ (n = 4 ∧ (k = 0 ∨ k = 4)) →
    ∃ new : Word → Word,
      (∀ w : Word, ∀ j, j < 64 → (new w).getLsbD j =
        if 8 * k ≤ j ∧ j < 8 * k + 8 * n then v.getLsbD (j - 8 * k) else w.getLsbD j) ∧
      access ⟨.write, 0x18 + k, n, v⟩ s =
        { s with opa := new s.opa, response := some .writeOk } ∧
      access ⟨.write, 0x20 + k, n, v⟩ s =
        { s with opb := new s.opb, response := some .writeOk } ∧
      access ⟨.write, 0x28 + k, n, v⟩ s =
        { s with opc := new s.opc, response := some .writeOk }

/-- R22 and R58 on STATUS: each written 1 in bits 1, 3, 4 clears that flag, every other written bit is ignored, no bit is ever
set, and the upper half of STATUS ignores every write. -/
def Obligations.StatusWriteOneToClear : Prop :=
  ∀ (s : State) (v : Word),
    (∀ n, n = 4 ∨ n = 8 → access ⟨.write, 0x08, n, v⟩ s =
      { s with
        done := s.done && !v.getLsbD 1, illop := s.illop && !v.getLsbD 3
        cbusy := s.cbusy && !v.getLsbD 4, response := some .writeOk }) ∧
    access ⟨.write, 0x0C, 4, v⟩ s = { s with response := some .writeOk }

/-- R21: writing CTRL stores IE and nothing else, its other bits read 0 and ignore writes, and `irq` is low with IE = 0. -/
def Obligations.ControlWriteStoresEnable : Prop :=
  ∀ (s : State) (v : Word),
    (∀ n, n = 4 ∨ n = 8 → access ⟨.write, 0x00, n, v⟩ s =
      { s with ie := v.getLsbD 0, response := some .writeOk }) ∧
    access ⟨.write, 0x04, 4, v⟩ s = { s with response := some .writeOk } ∧
    (access ⟨.read, 0x00, 8, 0⟩ s).busData = (if s.ie then 1 else 0) ∧
    (s.ie = false → irq s = false) ∧
    (s.ie = true → irq s = (s.done || s.illop || s.cbusy))

/-- R32 to R35 and R58: a legal write at RES0, RES1, the reserved offsets or DIGBUF is ignored without an error. -/
def Obligations.ReadOnlyWritesAreIgnored : Prop :=
  ∀ (a : Access) (s : State), a.kind = .write → a.legal = true → 0x30 ≤ a.off →
    access a s = { s with response := some .writeOk }

/-- R204: what one access reports. An illegal access gets an error response only; a word delivered while busy sets CBUSY only,
even if illegal; an illegal word delivered while idle sets ILLOP only; a legal one while idle is accepted. A completion leaves ILLOP
and CBUSY, and sets DONE. -/
def Obligations.ConditionPriority : Prop :=
  ∀ (a : Access) (s : State),
    (a.legal = false → access a s = { s with response := some (.busError a.off a.size a.kind) }) ∧
    (∀ w, deliveredWord a = some w → s.busy = true →
      access a s = { s with cbusy := true, response := some .writeOk }) ∧
    (∀ w, deliveredWord a = some w → s.busy = false → legalWord w = false →
      access a s = { s with illop := true, response := some .writeOk }) ∧
    (∀ w, deliveredWord a = some w → s.busy = false → legalWord w = true →
      access a s = { accept w s with response := some .writeOk }) ∧
    (∀ i, ∃ t, exec i s = .next t ∧ t.illop = s.illop ∧ t.cbusy = s.cbusy ∧ t.done = true)

/-- R52 and R8: an access at a bus address of the window reaches the unit at its offset, every other address is routed
elsewhere, and UNIT_BASE is a multiple of 256. -/
def Obligations.BusAddressDecode : Prop :=
  Config.unitBase % 256 = 0 ∧
  ∀ (base addr n : Nat) (v : Word),
    (base ≤ addr ∧ addr ≤ base + 0xFF →
      memRead base addr n = some (.host ⟨.read, addr - base, n, 0⟩) ∧
      memWrite base addr n v = some (.host ⟨.write, addr - base, n, v⟩)) ∧
    (addr < base ∨ base + 0xFF < addr → memRead base addr n = none ∧ memWrite base addr n v = none)

/-- R39 and R203 (R203 is the spec's own inference): with IE = 0 a completion still sets DONE while `irq` stays 0; writing IE
= 1 raises `irq` in the same step if a flag is set; writing IE = 0, or clearing all three flags, lowers it; INVAL is no
source, and a completion with IE = 1 interrupts through DONE. -/
def Obligations.InterruptFollowsFlags : Prop :=
  ∀ (s : State) (i : Instr),
    (∃ t, exec i s = .next t ∧ t.done = true ∧ irq t = s.ie) ∧
    (irq (access ⟨.write, 0x00, 8, 1⟩ s) = (s.done || s.illop || s.cbusy)) ∧
    (irq (access ⟨.write, 0x00, 8, 0⟩ s) = false) ∧
    (irq (access ⟨.write, 0x08, 8, 0x1A⟩ s) = false) ∧
    (∀ b, irq { s with inval := b } = irq s)

/-! ### Square-root family (41_sqrt.md) -/

/-- R123: ISQRT completes with RES0 = isqrt(x) below 2^32, RES1 = 0, INVAL = 0, and changes nothing else but BUSY and DONE. -/
def Obligations.IsqrtCompletes : Prop :=
  ∀ s : State, ∃ r : Nat, IsIsqrt s.latA.toNat r ∧ r ≤ 0xFFFFFFFF ∧
    exec .isqrt s = .next
      { s with res0 := BitVec.ofNat 64 r, res1 := 0, inval := false, busy := false, done := true }

/-- R124: SQRTQ32 completes with RES0 = isqrt(x * 2^64), which fits, RES1 = 32 and INVAL = 0. -/
def Obligations.Sqrtq32Completes : Prop :=
  ∀ s : State, ∃ r : Nat, IsIsqrt (s.latA.toNat * 2 ^ 64) r ∧ r < 2 ^ 64 ∧
    exec .sqrtq32 s = .next
      { s with res0 := BitVec.ofNat 64 r, res1 := 32, inval := false, busy := false, done := true }

/-- R125 and R126: PSQRT completes with RES1 = 32 + lead and RES0 = isqrt(x * 2^(2*fb)); `lead` is the count of leading zero digit
pairs of a nonzero x, the one count that brings it to [2^62, 2^64), and 0 at x = 0. -/
def Obligations.PsqrtCompletes : Prop :=
  ∀ s : State, ∃ lead r : Nat,
    (s.latA = 0 → lead = 0 ∧ r = 0) ∧
    (s.latA ≠ 0 → lead ≤ 31 ∧ 2 ^ 62 ≤ s.latA.toNat * 4 ^ lead ∧
      s.latA.toNat * 4 ^ lead < 2 ^ 64 ∧ 2 ^ 63 ≤ r) ∧
    IsIsqrt (s.latA.toNat * 2 ^ (2 * (32 + lead))) r ∧ r < 2 ^ 64 ∧
    exec .psqrt s = .next
      { s with
        res0 := BitVec.ofNat 64 r, res1 := BitVec.ofNat 64 (32 + lead), inval := false
        busy := false, done := true }

/-- R126: PSQRT at x = 0 gives RES0 = 0 and RES1 = 32. -/
def Obligations.PsqrtOfZero : Prop :=
  ∀ s : State, s.latA = 0 →
    exec .psqrt s = .next
      { s with res0 := 0, res1 := 32, inval := false, busy := false, done := true }

/-- R122 (the spec's own inference): after `k` iterations the accumulator is `isqrt(N_k)` and the remainder `N_k - a*a`, where `N_k` is the
number of the first `k` digit pairs of `N`; so the datapath ends with `isqrt(N)`, below `2^n`, and `N - a*a`. -/
def Obligations.SqrtCoreClosedForm : Prop :=
  ∀ (x : Word) (normalize : Bool) (n k : Nat), n = 32 ∨ n = 64 → k ≤ n →
    let N := x.toNat * 2 ^ (2 * sqrtLead x normalize) * 2 ^ (2 * n - 64)
    let Nk := N / 4 ^ (n - k)
    let q := sqrtLoop k (sqrtStart x normalize)
    IsIsqrt Nk q.a.toNat ∧ q.r.toNat = Nk - q.a.toNat * q.a.toNat ∧ q.a.toNat < 2 ^ k

/-- R120's width bounds, after every iteration of every run: `a < 2^k`, `r <= 2*a`, and the remainder and trial value computed
in the next iteration fit in 66 bits. -/
def Obligations.SqrtWidthsSuffice : Prop :=
  ∀ (x : Word) (normalize : Bool) (k : Nat), k < 64 →
    let q := sqrtLoop k (sqrtStart x normalize)
    q.a.toNat < 2 ^ k ∧ q.r.toNat ≤ 2 * q.a.toNat ∧
    4 * q.r.toNat + 3 < 2 ^ 66 ∧ 2 * (2 * q.a.toNat) + 1 < 2 ^ 65 ∧ 2 * q.a.toNat + 1 < 2 ^ 64

/-- R127 item 4 (the spec's own inference): the three roots of one operand agree, each a truncation of the next finer one. -/
def Obligations.RootsTruncateEachOther : Prop :=
  ∀ s : State, ∃ ti tq tp,
    exec .isqrt s = .next ti ∧ exec .sqrtq32 s = .next tq ∧ exec .psqrt s = .next tp ∧
    tq.res0 = tp.res0 >>> (tp.res1.toNat - 32) ∧ ti.res0 = tq.res0 >>> 32

/-- R128 to R131: FRND writes the first `n` decimal digits of `frac0 / 2^fb` in ASCII and 0x00 after them, `n` being where the
fraction left is 0 or the capacity leaves room for the NUL only; RES0 = n and RES1 is the fraction left. More than 64 fraction bits
give zeros, INVAL = 1 and DIGBUF all 0x00. -/
def Obligations.FrndCompletes : Prop :=
  ∀ s : State,
    let fb := s.latB.toNat
    let frac0 := s.latA.toNat % 2 ^ fb
    let capE := min s.latC.toNat 128
    (64 < fb → ∃ dig : Memory, (∀ k, dig.read k = 0) ∧ dig.wf = true ∧
      exec .frnd s = .next
        { s with
          res0 := 0, res1 := 0, inval := true, digbuf := dig, busy := false, done := true }) ∧
    (fb ≤ 64 → ∃ (n : Nat) (dig : Memory),
      (∀ k, k < n → k + 1 < capE ∧ frac0 * 10 ^ k % 2 ^ fb ≠ 0) ∧
      ¬ (n + 1 < capE ∧ frac0 * 10 ^ n % 2 ^ fb ≠ 0) ∧
      (∀ k, k < n →
        (dig.read k).toNat = 0x30 + frac0 * 10 ^ (k + 1) / 2 ^ fb % 10) ∧
      (∀ k, n ≤ k → dig.read k = 0) ∧ dig.wf = true ∧
      exec .frnd s = .next
        { s with
          res0 := BitVec.ofNat 64 n, res1 := BitVec.ofNat 64 (frac0 * 10 ^ n % 2 ^ fb)
          inval := false, digbuf := dig, busy := false, done := true })

/-- R132 (the spec's own inference): the number of digits FRND writes, never above 64; a capacity of 65 or more leaves no
residual. `frac0 = 2^z * odd` says `z = ctz(frac0)`. -/
def Obligations.FrndDigitCount : Prop :=
  ∀ s : State, s.latB.toNat ≤ 64 → ∃ t, exec .frnd s = .next t ∧ t.res0.toNat ≤ 64 ∧
    (65 ≤ s.latC.toNat → t.res1 = 0) ∧
    (s.latA.toNat % 2 ^ s.latB.toNat = 0 → t.res0 = 0) ∧
    (∀ z m, s.latA.toNat % 2 ^ s.latB.toNat = 2 ^ z * (2 * m + 1) →
      t.res0.toNat = min (min s.latC.toNat 128 - 1) (s.latB.toNat - z))

/-- R133: the shift-and-add product is ten times the fraction exactly, in 68 bits, and its digit lies in 0 to 9 and is bits
[fb+3:fb]. -/
def Obligations.TimesTenIsExact : Prop :=
  ∀ (frac : Word) (fb : Nat), fb ≤ 64 → frac.toNat < 2 ^ fb →
    (timesTen frac).toNat = frac.toNat * 10 ∧
    (timesTen frac >>> fb).toNat ≤ 9 ∧
    timesTen frac >>> fb = ((timesTen frac).extractLsb' fb 4).setWidth 68

/-! ### Modular-inverse family (42_modinv.md) -/

/-- R162 with R160's validity: MINV completes with the unique inverse below 2^bits and INVAL = 0 on valid arguments, and with 0 and INVAL = 1 on
invalid ones. -/
def Obligations.MinvCompletes : Prop :=
  ∀ s : State,
    let bits := s.latB.toNat
    let xm := s.latA.toNat % 2 ^ bits
    (1 ≤ bits ∧ bits ≤ 64 ∧ xm % 2 = 1 → ∃ y : Nat, y < 2 ^ bits ∧ xm * y % 2 ^ bits = 1 ∧
      (∀ z, z < 2 ^ bits → xm * z % 2 ^ bits = 1 → z = y) ∧
      exec .minv s = .next
        { s with
          res0 := BitVec.ofNat 64 y, res1 := 0, inval := false, busy := false, done := true }) ∧
    (¬ (1 ≤ bits ∧ bits ≤ 64 ∧ xm % 2 = 1) →
      exec .minv s = .next
        { s with res0 := 0, res1 := 0, inval := true, busy := false, done := true })

/-- R163 with R160's validity: MINVC completes with the inverse and the companion `w`, `y * xm = w * 2^bits + 1`, on valid arguments, and
with (0, 0) and INVAL = 1 on invalid ones. -/
def Obligations.MinvcCompletes : Prop :=
  ∀ s : State,
    let bits := s.latB.toNat
    let xm := s.latA.toNat % 2 ^ bits
    (1 ≤ bits ∧ bits ≤ 64 ∧ xm % 2 = 1 → ∃ y w : Nat, y < 2 ^ bits ∧ xm * y % 2 ^ bits = 1 ∧
      w = y * xm / 2 ^ bits ∧ y * xm = w * 2 ^ bits + 1 ∧ w < 2 ^ bits ∧
      exec .minvc s = .next
        { s with
          res0 := BitVec.ofNat 64 y, res1 := BitVec.ofNat 64 w, inval := false
          busy := false, done := true }) ∧
    (¬ (1 ≤ bits ∧ bits ≤ 64 ∧ xm % 2 = 1) →
      exec .minvc s = .next
        { s with res0 := 0, res1 := 0, inval := true, busy := false, done := true })

/-- R165 items 2 and 5 (the spec's own inference): MINV and MINVC give the same RES0 and INVAL for the same operands, and a
valid inverse is odd. -/
def Obligations.InverseCommandsAgree : Prop :=
  ∀ s : State, ∃ t u, exec .minv s = .next t ∧ exec .minvc s = .next u ∧
    t.res0 = u.res0 ∧ t.inval = u.inval ∧ (t.inval = false → t.res0.toNat % 2 = 1)

/-- R161's invariant and R166's bound (both the spec's own inference): after every pass `state = (xm * result) mod 2^bits`, and
within `bits - 1` passes `state` is 1. -/
def Obligations.BitLiftEndsInTime : Prop :=
  ∀ (x : Word) (bits : Nat), validModulus x bits = true →
    let xm := lowBits x bits
    (∀ k, (liftLoop xm bits k (liftStart xm)).state.toNat =
      xm.toNat * (liftLoop xm bits k (liftStart xm)).result.toNat % 2 ^ bits) ∧
    (liftLoop xm bits (bits - 1) (liftStart xm)).state = 1

/-- R164: the four partial products with carry propagation make the exact product that the companion is taken from. -/
def Obligations.PartialProductsAreExact : Prop :=
  ∀ y xm : Word,
    partialProducts y xm = y.toNat * xm.toNat ∧ (exactProduct y xm).toNat = partialProducts y xm

/-! ### Frames and whole-machine rules (10_state.md) -/

/-- R38 and R105: what no command changes when it completes: CTRL, ILLOP, CBUSY, `cmd_last`, the operand registers, the
latches (assumption 11), the schedule and the bus response, and, for every command but FRND, every byte of DIGBUF. -/
def Obligations.CommandFrame : Prop :=
  ∀ (i : Instr) (s : State), ∃ t, exec i s = .next t ∧
    t.ie = s.ie ∧ t.illop = s.illop ∧ t.cbusy = s.cbusy ∧ t.cmdLast = s.cmdLast ∧
    t.opa = s.opa ∧ t.opb = s.opb ∧ t.opc = s.opc ∧
    t.latOp = s.latOp ∧ t.latA = s.latA ∧ t.latB = s.latB ∧ t.latC = s.latC ∧
    t.turns = s.turns ∧ t.response = s.response ∧ t.busy = false ∧ t.done = true ∧
    (i ≠ .frnd → ∀ k, t.digbuf.read k = s.digbuf.read k)

/-- R23: after a step BUSY is 1 exactly if the step accepted a command, or BUSY was 1 and the step neither completed it
nor was a reset. -/
def Obligations.BusyChangesOnly : Prop :=
  ∀ s t : State, step s = .next t →
    (t.busy = true ↔ s.nextAcceptance.isSome = true ∨
      (s.busy = true ∧ s.nextCompletes = false ∧ s.nextResets = false))

/-- R24: after a step DONE is 1 exactly if the step completed a command, or DONE was 1 and the step was no acceptance,
no write of 1 to STATUS bit 1 and no reset. -/
def Obligations.DoneChangesOnly : Prop :=
  ∀ s t : State, step s = .next t →
    (t.done = true ↔ s.nextCompletes = true ∨
      (s.done = true ∧ s.nextAcceptance = none ∧ s.nextClears 1 = false ∧ s.nextResets = false))

/-- R26: after a step ILLOP is 1 exactly if the step delivered an illegal word while BUSY was 0, or ILLOP was 1 and the
step was no write of 1 to STATUS bit 3 and no reset. -/
def Obligations.IllopChangesOnly : Prop :=
  ∀ s t : State, step s = .next t →
    (t.illop = true ↔
      (∃ w, s.nextDelivery = some w ∧ legalWord w = false ∧ s.busy = false) ∨
      (s.illop = true ∧ s.nextClears 3 = false ∧ s.nextResets = false))

/-- R27: after a step CBUSY is 1 exactly if the step delivered a word while BUSY was 1, or CBUSY was 1 and the step was no
write of 1 to STATUS bit 4 and no reset. -/
def Obligations.CbusyChangesOnly : Prop :=
  ∀ s t : State, step s = .next t →
    (t.cbusy = true ↔
      (s.nextDelivery.isSome = true ∧ s.busy = true) ∨
      (s.cbusy = true ∧ s.nextClears 4 = false ∧ s.nextResets = false))

/-- R25 and R32 to R34, and R41's third invariant: RES0, RES1, INVAL and DIGBUF change in no step but a completion and a reset, so
while BUSY is 1 they hold what the previous completion wrote. -/
def Obligations.ResultsChangeOnlyAtCompletion : Prop :=
  ∀ s t : State, step s = .next t → s.nextCompletes = false → s.nextResets = false →
    t.res0 = s.res0 ∧ t.res1 = s.res1 ∧ t.inval = s.inval ∧
    ∀ k, t.digbuf.read k = s.digbuf.read k

/-- R28 with R29 to R31: `cmd_last` becomes the accepted word, 0 at a reset, and is kept by every other step; no step of the unit
changes an operand register. -/
def Obligations.LastCommandIsKept : Prop :=
  ∀ s t : State, step s = .next t →
    (∀ w, s.nextAcceptance = some w → t.cmdLast = w) ∧
    (s.nextResets = true → t.cmdLast = 0) ∧
    (s.nextAcceptance = none → s.nextResets = false → t.cmdLast = s.cmdLast) ∧
    (s.nextAccess = none → s.nextResets = false →
      t.opa = s.opa ∧ t.opb = s.opb ∧ t.opc = s.opc ∧ t.ie = s.ie)

/-! ### Reset and invariants (10_state.md R40, R41; 70_reset_and_hazards.md) -/

/-- R40's values: every register, flag, latch and DIGBUF byte is 0 after reset, and `irq` is 0. -/
def Obligations.ResetValues : Prop :=
  let s := State.reset
  s.ie = false ∧ s.busy = false ∧ s.done = false ∧ s.inval = false ∧ s.illop = false ∧
  s.cbusy = false ∧ s.cmdLast = 0 ∧ s.opa = 0 ∧ s.opb = 0 ∧ s.opc = 0 ∧ s.res0 = 0 ∧ s.res1 = 0 ∧
  (∀ k, s.digbuf.read k = 0) ∧ s.latOp = 0 ∧ s.latA = 0 ∧ s.latB = 0 ∧ s.latC = 0 ∧ irq s = false

/-- R240: a reset takes every piece of the unit's state to its reset value from any state, abandoning a command in flight.
That it is one step is the model's reading (assumption 5). -/
def Obligations.ResetFromAnyState : Prop :=
  ∀ (s : State) (rest : List Turn), s.turns = .reset :: rest →
    step s = .next { State.reset with turns := rest }

/-- The reset state meets both invariants below. -/
def Obligations.ResetMeetsInvariants : Prop :=
  State.reset.Inv ∧ State.reset.DigitString

/-- R41's first two invariants, the latch of a command in flight and DIGBUF's canonical form are kept by every step,
from every state that meets them and under every schedule. -/
def Obligations.StepKeepsInv : Prop :=
  ∀ s t : State, s.Inv → step s = .next t → t.Inv

/-- DIGBUF stays a NUL-terminated string of at most 64 decimal digits (R34, R130, R132) through every step. -/
def Obligations.StepKeepsDigitString : Prop :=
  ∀ s t : State, s.DigitString → step s = .next t → t.DigitString

/-- "No behaviour of the unit is `stuck`" (93_implementation_defined.md): from every state of the invariant the machine has
a next state, whatever the schedule holds; so in no reachable state does it fault. -/
def Obligations.UnitNeverStops : Prop :=
  (∀ s : State, s.Inv → ∃ t, step s = .next t) ∧
  (∀ s : State, s.Reachable → ∃ t, step s = .next t)

/-! ### Progress and time (40_command.md R106, 60_exceptions.md R205) -/

/-- R106's fairness: whatever is scheduled, the machine runs through it and is then idle, one step after the last
scheduled turn: a command in flight there has completed, or a reset abandoned it. That the unit steps when nothing is scheduled is
the model's choice (assumption 1). -/
def Obligations.IdleAfterSchedule : Prop :=
  ∀ s : State, s.Inv → ∃ t, Sys2Proof.core.run (s.turns.length + 1) s = .next t ∧
    t.busy = false ∧ t.turns = []

/-- R8, R106 and R205 on the clocked unit, whose cycle with at most one access is the model's choice (assumption 6). A command with `n`
clock cycles left stays in flight through `n - 1` cycles, whatever accesses come, and completes at the start of the next cycle, before
that cycle's access. Every cycle that accepts a command sets the count to its latency: of an idle unit, and of one whose
completion opens the cycle. -/
def Obligations.LatencyCountsCycles : Prop :=
  (∀ (lat : Latency) (as : List (Option Access)) (a : Option Access) (c : Clocked) (i : Instr),
    c.unit.busy = true → c.unit.latOp = BitVec.ofNat 4 (encode i).toNat →
    c.left = as.length + 1 →
    ∃ c1 u c2, clockCycles lat as c = .next c1 ∧ c1.unit.busy = true ∧
      exec i c1.unit = .next u ∧ clockCycle lat a c1 = .next c2 ∧ c2.unit = cycleAccess a u ∧
      u.res0 = (match exec i c.unit with | .next t => t.res0 | _ => 0) ∧
      (c2.unit.busy = true →
        c2.left = lat c2.unit.latOp c2.unit.latA c2.unit.latB c2.unit.latC)) ∧
  (∀ (lat : Latency) (a : Option Access) (c : Clocked),
    c.unit.busy = false → (cycleAccess a c.unit).busy = true →
    ∃ c', clockCycle lat a c = .next c' ∧ c'.unit = cycleAccess a c.unit ∧
      c'.left = lat c'.unit.latOp c'.unit.latA c'.unit.latB c'.unit.latC)

/-- R106 and R205: every cycle of a unit with any latency is a run of the untimed machine, which therefore admits it. The clocked
unit is the model's choice (assumption 6). -/
def Obligations.ClockedUnitIsAdmitted : Prop :=
  ∀ (lat : Latency) (a : Option Access) (c c' : Clocked), clockCycle lat a c = .next c' →
    Sys2Proof.core.run (cycleTurns a c).length
      { c.unit with turns := cycleTurns a c ++ c.unit.turns } = .next c'.unit

/-- R247's tearing: with a completion between them, two 4-byte reads of RES0 can return halves of different results. -/
def Obligations.TornReadIsPossible : Prop :=
  ∃ s t u v : State, s.Inv ∧ step s = .next t ∧ step t = .next u ∧ step u = .next v ∧
    s.turns = [.host ⟨.read, 0x30, 4, 0⟩, .unit, .host ⟨.read, 0x34, 4, 0⟩] ∧
    t.busData = (BitVec.ofNat 64 (s.res0.toNat % 2 ^ 32)) ∧ v.busData = u.res0 >>> 32 ∧
    (v.busData <<< 32) ||| t.busData ≠ s.res0 ∧ (v.busData <<< 32) ||| t.busData ≠ u.res0

/-! ### Host programs (30_encoding.md R89, R90) -/

/-- `wait` (R90): two statements that load STATUS into the polling variable, change no state of the unit, and go back to
the load while BUSY is 1 and past the loop when it is 0. -/
def Obligations.WaitPollsBusy : Prop :=
  ∀ (code : List HostStmt) (here t : Nat) (vars : List (Nat × Word)) (s : State),
    code[here]? = (waitStmts here t)[0]? → code[here + 1]? = (waitStmts here t)[1]? →
    hostStep (hostStep ⟨code, here, vars⟩ s).1 (hostStep ⟨code, here, vars⟩ s).2 =
      (⟨code, if s.busy then here else here + 2, (t, statusWord s) :: vars⟩,
        { s with response := some (.readOk (statusWord s)) })

/-- `ack` (R90, 60_exceptions.md R207): one statement, which clears DONE, ILLOP and CBUSY and changes no other state of the unit. -/
def Obligations.AckClearsFlags : Prop :=
  ∀ (h : HostProcess) (s : State), h.code[h.pc]? = ackStmts[0]? →
    hostStep h s = ({ h with pc := h.pc + 1 },
      { s with done := false, illop := false, cbusy := false, response := some .writeOk })

/-! ### The machine's step and the unit's state (00_scope.md R12, 10_state.md R42) -/

/-- A scheduled host access is one step, and that step is `access` of it on the state with the rest of the schedule (R12,
R55). -/
def Obligations.HostTurnIsAccess : Prop :=
  ∀ (s : State) (a : Access) (rest : List Turn), s.turns = .host a :: rest →
    step s = .next (access a { s with turns := rest })

/-- R42: the unit has no state but its fields there. Two machine states with one unit state answer every turn alike: the same
unit state, and the same response to an access, whatever is scheduled and whatever the bus carried before. -/
def Obligations.UnitStateSuffices : Prop :=
  ∀ (s s' u : State) (t : Turn), s.toUnitState = s'.toUnitState → turnStep t s = .next u →
    ∃ u', turnStep t s' = .next u' ∧ u'.toUnitState = u.toUnitState ∧
      (∀ a, t = .host a → u'.response = u.response)
end

