-- ==== Sys2Proof/Laws/Decode.lean ====
section
/-! SUPPORT. The decoder, case by case. -/

namespace Sys2Proof

@[simp] theorem decode_encode (i : Instr) : decode (encode i) = .command i := by cases i <;> decide

@[simp] theorem decodeOp_opField_encode (i : Instr) : decodeOp (opField (encode i)) = .command i := by
  cases i <;> decide

/-- Everything `decodeOp` can answer. -/
theorem decodeOp_eq_command {op : BitVec 4} {i : Instr} :
    decodeOp op = .command i ↔ op = opField (encode i) := by
  revert op
  cases i <;> decide

/-- A word is its two fields. -/
theorem word_eq_fields (w : Word) : w = rsvField w ++ opField w := by
  apply BitVec.eq_of_getLsbD_eq
  intro j hj
  rw [BitVec.getLsbD_append]
  by_cases h : j < 4
  · simp [opField, h]
  · have h4 : 4 + (j - 4) = j := by omega
    simp [rsvField, h, h4, show j - 4 < 60 by omega]

/-- The words that decode to a command are the one word of that command (30_encoding.md R81, R87). -/
theorem eq_encode_of_decode {w : Word} {i : Instr} (h : decode w = .command i) : w = encode i := by
  unfold decode at h
  split at h
  · rw [word_eq_fields w, ‹rsvField w = 0›, decodeOp_eq_command.mp h]
    cases i <;> decide
  · cases h

end Sys2Proof
end

