-- ==== Sys2Proof/Laws/State.lean ====
section
/-! SUPPORT. One lemma per field per shared update of the state, so that no proof unfolds a record update. -/

namespace Sys2Proof.Machine

/-! ### `accept` -/

@[simp] theorem accept_ie (w : Word) (s : State) : (accept w s).ie = s.ie := rfl
@[simp] theorem accept_busy (w : Word) (s : State) : (accept w s).busy = true := rfl
@[simp] theorem accept_done (w : Word) (s : State) : (accept w s).done = false := rfl
@[simp] theorem accept_inval (w : Word) (s : State) : (accept w s).inval = s.inval := rfl
@[simp] theorem accept_illop (w : Word) (s : State) : (accept w s).illop = s.illop := rfl
@[simp] theorem accept_cbusy (w : Word) (s : State) : (accept w s).cbusy = s.cbusy := rfl
@[simp] theorem accept_cmdLast (w : Word) (s : State) : (accept w s).cmdLast = w := rfl
@[simp] theorem accept_opa (w : Word) (s : State) : (accept w s).opa = s.opa := rfl
@[simp] theorem accept_opb (w : Word) (s : State) : (accept w s).opb = s.opb := rfl
@[simp] theorem accept_opc (w : Word) (s : State) : (accept w s).opc = s.opc := rfl
@[simp] theorem accept_res0 (w : Word) (s : State) : (accept w s).res0 = s.res0 := rfl
@[simp] theorem accept_res1 (w : Word) (s : State) : (accept w s).res1 = s.res1 := rfl
@[simp] theorem accept_digbuf (w : Word) (s : State) : (accept w s).digbuf = s.digbuf := rfl
@[simp] theorem accept_latOp (w : Word) (s : State) : (accept w s).latOp = opField w := rfl
@[simp] theorem accept_latA (w : Word) (s : State) : (accept w s).latA = s.opa := rfl
@[simp] theorem accept_latB (w : Word) (s : State) : (accept w s).latB = s.opb := rfl
@[simp] theorem accept_latC (w : Word) (s : State) : (accept w s).latC = s.opc := rfl
@[simp] theorem accept_turns (w : Word) (s : State) : (accept w s).turns = s.turns := rfl
@[simp] theorem accept_response (w : Word) (s : State) : (accept w s).response = s.response := rfl

/-! ### `complete` -/

@[simp] theorem complete_ie (c : CommandResult) (s : State) : (complete c s).ie = s.ie := rfl
@[simp] theorem complete_busy (c : CommandResult) (s : State) : (complete c s).busy = false := rfl
@[simp] theorem complete_done (c : CommandResult) (s : State) : (complete c s).done = true := rfl
@[simp] theorem complete_inval (c : CommandResult) (s : State) : (complete c s).inval = c.inval := rfl
@[simp] theorem complete_illop (c : CommandResult) (s : State) : (complete c s).illop = s.illop := rfl
@[simp] theorem complete_cbusy (c : CommandResult) (s : State) : (complete c s).cbusy = s.cbusy := rfl
@[simp] theorem complete_cmdLast (c : CommandResult) (s : State) : (complete c s).cmdLast = s.cmdLast := rfl
@[simp] theorem complete_opa (c : CommandResult) (s : State) : (complete c s).opa = s.opa := rfl
@[simp] theorem complete_opb (c : CommandResult) (s : State) : (complete c s).opb = s.opb := rfl
@[simp] theorem complete_opc (c : CommandResult) (s : State) : (complete c s).opc = s.opc := rfl
@[simp] theorem complete_res0 (c : CommandResult) (s : State) : (complete c s).res0 = c.res0 := rfl
@[simp] theorem complete_res1 (c : CommandResult) (s : State) : (complete c s).res1 = c.res1 := rfl
@[simp] theorem complete_digbuf (c : CommandResult) (s : State) : (complete c s).digbuf = c.dig.getD s.digbuf := rfl
@[simp] theorem complete_latOp (c : CommandResult) (s : State) : (complete c s).latOp = s.latOp := rfl
@[simp] theorem complete_latA (c : CommandResult) (s : State) : (complete c s).latA = s.latA := rfl
@[simp] theorem complete_latB (c : CommandResult) (s : State) : (complete c s).latB = s.latB := rfl
@[simp] theorem complete_latC (c : CommandResult) (s : State) : (complete c s).latC = s.latC := rfl
@[simp] theorem complete_turns (c : CommandResult) (s : State) : (complete c s).turns = s.turns := rfl
@[simp] theorem complete_response (c : CommandResult) (s : State) : (complete c s).response = s.response := rfl

/-! ### `clearFlags` -/

@[simp] theorem clearFlags_ie (w : Word) (s : State) : (clearFlags w s).ie = s.ie := rfl
@[simp] theorem clearFlags_busy (w : Word) (s : State) : (clearFlags w s).busy = s.busy := rfl
@[simp] theorem clearFlags_done (w : Word) (s : State) : (clearFlags w s).done = (s.done && !w.getLsbD 1) := rfl
@[simp] theorem clearFlags_inval (w : Word) (s : State) : (clearFlags w s).inval = s.inval := rfl
@[simp] theorem clearFlags_illop (w : Word) (s : State) : (clearFlags w s).illop = (s.illop && !w.getLsbD 3) := rfl
@[simp] theorem clearFlags_cbusy (w : Word) (s : State) : (clearFlags w s).cbusy = (s.cbusy && !w.getLsbD 4) := rfl
@[simp] theorem clearFlags_cmdLast (w : Word) (s : State) : (clearFlags w s).cmdLast = s.cmdLast := rfl
@[simp] theorem clearFlags_opa (w : Word) (s : State) : (clearFlags w s).opa = s.opa := rfl
@[simp] theorem clearFlags_opb (w : Word) (s : State) : (clearFlags w s).opb = s.opb := rfl
@[simp] theorem clearFlags_opc (w : Word) (s : State) : (clearFlags w s).opc = s.opc := rfl
@[simp] theorem clearFlags_res0 (w : Word) (s : State) : (clearFlags w s).res0 = s.res0 := rfl
@[simp] theorem clearFlags_res1 (w : Word) (s : State) : (clearFlags w s).res1 = s.res1 := rfl
@[simp] theorem clearFlags_digbuf (w : Word) (s : State) : (clearFlags w s).digbuf = s.digbuf := rfl
@[simp] theorem clearFlags_latOp (w : Word) (s : State) : (clearFlags w s).latOp = s.latOp := rfl
@[simp] theorem clearFlags_latA (w : Word) (s : State) : (clearFlags w s).latA = s.latA := rfl
@[simp] theorem clearFlags_latB (w : Word) (s : State) : (clearFlags w s).latB = s.latB := rfl
@[simp] theorem clearFlags_latC (w : Word) (s : State) : (clearFlags w s).latC = s.latC := rfl
@[simp] theorem clearFlags_turns (w : Word) (s : State) : (clearFlags w s).turns = s.turns := rfl
@[simp] theorem clearFlags_response (w : Word) (s : State) : (clearFlags w s).response = s.response := rfl

/-! ### `errorResponse` -/

@[simp] theorem errorResponse_ie (a : Access) (s : State) : (errorResponse a s).ie = s.ie := rfl
@[simp] theorem errorResponse_busy (a : Access) (s : State) : (errorResponse a s).busy = s.busy := rfl
@[simp] theorem errorResponse_done (a : Access) (s : State) : (errorResponse a s).done = s.done := rfl
@[simp] theorem errorResponse_inval (a : Access) (s : State) : (errorResponse a s).inval = s.inval := rfl
@[simp] theorem errorResponse_illop (a : Access) (s : State) : (errorResponse a s).illop = s.illop := rfl
@[simp] theorem errorResponse_cbusy (a : Access) (s : State) : (errorResponse a s).cbusy = s.cbusy := rfl
@[simp] theorem errorResponse_cmdLast (a : Access) (s : State) : (errorResponse a s).cmdLast = s.cmdLast := rfl
@[simp] theorem errorResponse_opa (a : Access) (s : State) : (errorResponse a s).opa = s.opa := rfl
@[simp] theorem errorResponse_opb (a : Access) (s : State) : (errorResponse a s).opb = s.opb := rfl
@[simp] theorem errorResponse_opc (a : Access) (s : State) : (errorResponse a s).opc = s.opc := rfl
@[simp] theorem errorResponse_res0 (a : Access) (s : State) : (errorResponse a s).res0 = s.res0 := rfl
@[simp] theorem errorResponse_res1 (a : Access) (s : State) : (errorResponse a s).res1 = s.res1 := rfl
@[simp] theorem errorResponse_digbuf (a : Access) (s : State) : (errorResponse a s).digbuf = s.digbuf := rfl
@[simp] theorem errorResponse_latOp (a : Access) (s : State) : (errorResponse a s).latOp = s.latOp := rfl
@[simp] theorem errorResponse_latA (a : Access) (s : State) : (errorResponse a s).latA = s.latA := rfl
@[simp] theorem errorResponse_latB (a : Access) (s : State) : (errorResponse a s).latB = s.latB := rfl
@[simp] theorem errorResponse_latC (a : Access) (s : State) : (errorResponse a s).latC = s.latC := rfl
@[simp] theorem errorResponse_turns (a : Access) (s : State) : (errorResponse a s).turns = s.turns := rfl
@[simp] theorem errorResponse_response (a : Access) (s : State) : (errorResponse a s).response = some (.busError a.off a.size a.kind) := rfl

/-! ### `applyReset` -/

@[simp] theorem applyReset_ie (s : State) : (applyReset s).ie = false := rfl
@[simp] theorem applyReset_busy (s : State) : (applyReset s).busy = false := rfl
@[simp] theorem applyReset_done (s : State) : (applyReset s).done = false := rfl
@[simp] theorem applyReset_inval (s : State) : (applyReset s).inval = false := rfl
@[simp] theorem applyReset_illop (s : State) : (applyReset s).illop = false := rfl
@[simp] theorem applyReset_cbusy (s : State) : (applyReset s).cbusy = false := rfl
@[simp] theorem applyReset_cmdLast (s : State) : (applyReset s).cmdLast = 0 := rfl
@[simp] theorem applyReset_opa (s : State) : (applyReset s).opa = 0 := rfl
@[simp] theorem applyReset_opb (s : State) : (applyReset s).opb = 0 := rfl
@[simp] theorem applyReset_opc (s : State) : (applyReset s).opc = 0 := rfl
@[simp] theorem applyReset_res0 (s : State) : (applyReset s).res0 = 0 := rfl
@[simp] theorem applyReset_res1 (s : State) : (applyReset s).res1 = 0 := rfl
@[simp] theorem applyReset_digbuf (s : State) : (applyReset s).digbuf = [] := rfl
@[simp] theorem applyReset_latOp (s : State) : (applyReset s).latOp = 0 := rfl
@[simp] theorem applyReset_latA (s : State) : (applyReset s).latA = 0 := rfl
@[simp] theorem applyReset_latB (s : State) : (applyReset s).latB = 0 := rfl
@[simp] theorem applyReset_latC (s : State) : (applyReset s).latC = 0 := rfl
@[simp] theorem applyReset_turns (s : State) : (applyReset s).turns = s.turns := rfl
@[simp] theorem applyReset_response (s : State) : (applyReset s).response = none := rfl

/-! ### The unit's state as a whole (10_state.md R42) -/

@[simp] theorem errorResponse_toUnitState (a : Access) (s : State) :
    (errorResponse a s).toUnitState = s.toUnitState := rfl

@[simp] theorem applyReset_toUnitState (s : State) :
    (applyReset s).toUnitState = State.reset.toUnitState := rfl

end Sys2Proof.Machine
end

