-- ==== Sys2Proof/Laws/Access.lean ====
section
/-! SUPPORT. What delivering a command word and a host access can do, said once. -/

namespace Sys2Proof.Machine

/-- Everything `command_write` can do (40_command.md R100 to R103). -/
theorem commandWrite_cases (w : Word) (s : State) :
    (s.busy = true ∧ commandWrite w s = { s with cbusy := true }) ∨
    (s.busy = false ∧ (decode w).toOption = none ∧ commandWrite w s = { s with illop := true }) ∨
    (s.busy = false ∧ (∃ i, w = encode i) ∧ commandWrite w s = accept w s) := by
  cases hb : s.busy
  · cases hd : decode w with
    | command i => exact .inr (.inr ⟨rfl, ⟨i, eq_encode_of_decode hd⟩, by simp [commandWrite, hb, hd]⟩)
    | illegal e => exact .inr (.inl ⟨rfl, rfl, by simp [commandWrite, hb, hd]⟩)
  · exact .inl ⟨rfl, by simp [commandWrite, hb]⟩

/-- Everything a legal write can do to the unit (20_memory.md R58). -/
theorem writeEffect_cases (off n : Nat) (v : Word) (s : State) :
    (∃ b, writeEffect off n v s = { s with ie := b }) ∨
    writeEffect off n v s = clearFlags (writtenBits off n v) s ∨
    writeEffect off n v s = commandWrite (lowBits v (8 * n)) s ∨
    (∃ a b c, writeEffect off n v s = { s with opa := a, opb := b, opc := c }) := by
  unfold writeEffect
  cases windowReg off with
  | ctrl => exact .inl ⟨_, rfl⟩
  | status => exact .inr (.inl rfl)
  | cmd =>
    by_cases h : byteShift off = 0
    · exact .inr (.inr (.inl (if_pos h)))
    · exact .inr (.inr (.inr ⟨s.opa, s.opb, s.opc, if_neg h⟩))
  | opa => exact .inr (.inr (.inr ⟨_, s.opb, s.opc, rfl⟩))
  | opb => exact .inr (.inr (.inr ⟨s.opa, _, s.opc, rfl⟩))
  | opc => exact .inr (.inr (.inr ⟨s.opa, s.opb, _, rfl⟩))
  | res0 => exact .inr (.inr (.inr ⟨s.opa, s.opb, s.opc, rfl⟩))
  | res1 => exact .inr (.inr (.inr ⟨s.opa, s.opb, s.opc, rfl⟩))
  | reserved => exact .inr (.inr (.inr ⟨s.opa, s.opb, s.opc, rfl⟩))
  | digits i => exact .inr (.inr (.inr ⟨s.opa, s.opb, s.opc, rfl⟩))

/-- Everything an access can do (R55): an error response, a read's answer, or a write's effect. -/
theorem access_cases (a : Access) (s : State) :
    (a.legal = false ∧ access a s = errorResponse a s) ∨
    (a.legal = true ∧ a.kind = .read ∧
      access a s = { s with response := some (.readOk (readValue s a.off a.size)) }) ∨
    (a.legal = true ∧ a.kind = .write ∧
      access a s = { writeEffect a.off a.size a.data s with response := some .writeOk }) := by
  cases hl : a.legal
  · exact .inl ⟨rfl, by simp [access, hl]⟩
  · cases hk : a.kind
    · exact .inr (.inl ⟨rfl, rfl, by simp [access, hl, hk]⟩)
    · exact .inr (.inr ⟨rfl, rfl, by simp [access, hl, hk]⟩)

/-- What no access changes: results, DIGBUF and the schedule (10_state.md R38). -/
theorem access_keeps (a : Access) (s : State) :
    (access a s).res0 = s.res0 ∧ (access a s).res1 = s.res1 ∧ (access a s).inval = s.inval ∧
    (access a s).digbuf = s.digbuf ∧ (access a s).turns = s.turns := by
  obtain ⟨_, h⟩ | ⟨_, _, h⟩ | ⟨_, _, h⟩ := access_cases a s
  · simp [h]
  · simp [h]
  · obtain ⟨b, hw⟩ | hw | hw | ⟨x, y, z, hw⟩ := writeEffect_cases a.off a.size a.data s
    · simp [h, hw]
    · simp [h, hw]
    · obtain ⟨_, hc⟩ | ⟨_, _, hc⟩ | ⟨_, _, hc⟩ := commandWrite_cases (lowBits a.data (8 * a.size)) s <;>
        simp [h, hw, hc]
    · simp [h, hw]

/-- The schedule is no part of an access: it commutes with setting it. -/
theorem access_with_turns (a : Access) (s : State) (ts : List Turn) :
    access a { s with turns := ts } = { access a s with turns := ts } := by
  unfold access errorResponse
  split
  · cases a.kind
    · rfl
    · simp only [writeEffect, commandWrite]
      cases windowReg a.off <;> simp only [] <;> try rfl
      split
      · split
        · rfl
        · cases decode (lowBits a.data (8 * a.size)) <;> rfl
      · rfl
  · rfl

end Sys2Proof.Machine
end

