-- ==== Sys2Proof/Laws/Memory.lean ====
section
/-! SUPPORT. DIGBUF: read after write, and the canonical form every operation keeps. -/

namespace Sys2Proof.Machine

@[simp] theorem Memory.read_nil (i : Nat) : Memory.read [] i = 0#8 := rfl

@[simp] theorem Memory.read_cons (k : Nat) (b : Byte) (m : Memory) (i : Nat) :
    Memory.read ((k, b) :: m) i = if k = i then b else m.read i := rfl

@[simp] theorem Memory.wf_nil : Memory.wf [] = true := rfl

theorem Memory.wfFrom_cons (lo k : Nat) (b : Byte) (m : Memory) :
    Memory.wfFrom lo ((k, b) :: m) = true ↔
      lo ≤ k ∧ k < 128 ∧ b ≠ 0#8 ∧ Memory.wfFrom (k + 1) m = true := by
  simp only [Memory.wfFrom, Bool.and_eq_true, decide_eq_true_eq, bne_iff_ne, and_assoc]
  rfl

theorem Memory.wfFrom_mono {lo hi : Nat} (h : lo ≤ hi) {m : Memory}
    (hm : Memory.wfFrom hi m = true) : Memory.wfFrom lo m = true := by
  cases m with
  | nil => rfl
  | cons c rest =>
    obtain ⟨k, b⟩ := c
    rw [Memory.wfFrom_cons] at hm ⊢
    exact ⟨by omega, hm.2⟩

/-- Below its first index a canonical memory reads 0x00. -/
theorem Memory.read_below {lo i : Nat} {m : Memory} (hm : Memory.wfFrom lo m = true)
    (hi : i < lo) : m.read i = 0#8 := by
  induction m generalizing lo with
  | nil => rfl
  | cons c rest ih =>
    obtain ⟨k, b⟩ := c
    rw [Memory.wfFrom_cons] at hm
    rw [Memory.read_cons, if_neg (by omega)]
    exact ih hm.2.2.2 (by omega)

/-- A write keeps the canonical form. -/
theorem Memory.wfFrom_write {lo i : Nat} {b : Byte} {m : Memory} (hm : Memory.wfFrom lo m = true)
    (hlo : lo ≤ i) (hi : i < 128) : Memory.wfFrom lo (m.write i b) = true := by
  induction m generalizing lo with
  | nil =>
    by_cases hb : b = 0#8
    · simp [Memory.write, hb, Memory.wfFrom]
    · simp only [Memory.write, if_neg hb, Memory.wfFrom_cons]
      exact ⟨hlo, hi, hb, rfl⟩
  | cons c rest ih =>
    obtain ⟨k, c⟩ := c
    have hm' := hm
    rw [Memory.wfFrom_cons] at hm
    obtain ⟨h1, h2, h3, h4⟩ := hm
    simp only [Memory.write]
    split
    · split
      · exact hm'
      · rw [Memory.wfFrom_cons, Memory.wfFrom_cons]
        exact ⟨hlo, hi, ‹_›, by omega, h2, h3, h4⟩
    · split
      · subst i
        split
        · exact Memory.wfFrom_mono (by omega) h4
        · rw [Memory.wfFrom_cons]
          exact ⟨h1, h2, ‹_›, h4⟩
      · rw [Memory.wfFrom_cons]
        exact ⟨h1, h2, h3, ih h4 (by omega)⟩

theorem Memory.wf_write {i : Nat} {b : Byte} {m : Memory} (hm : m.wf = true) (hi : i < 128) :
    (m.write i b).wf = true := Memory.wfFrom_write hm (Nat.zero_le _) hi

/-- Read after write, on a canonical memory. -/
theorem Memory.read_write {lo i j : Nat} {b : Byte} {m : Memory} (hm : Memory.wfFrom lo m = true) :
    (m.write i b).read j = if i = j then b else m.read j := by
  induction m generalizing lo with
  | nil => by_cases hb : b = 0#8 <;> simp [Memory.write, hb]
  | cons c rest ih =>
    obtain ⟨k, c⟩ := c
    rw [Memory.wfFrom_cons] at hm
    obtain ⟨_, _, _, h4⟩ := hm
    have below : ∀ j, j < k + 1 → Memory.read rest j = 0#8 := fun j hj => Memory.read_below h4 hj
    simp only [Memory.write]
    by_cases h1 : i < k
    · by_cases hb : b = 0#8
      · by_cases hij : i = j
        · subst hij
          simp [h1, hb, below i (by omega), show k ≠ i by omega]
        · simp [h1, hb, hij]
      · simp [h1, hb]
    · by_cases h2 : i = k
      · subst h2
        by_cases hb : b = 0#8
        · by_cases hij : i = j
          · subst hij
            simp [hb, below i (by omega)]
          · simp [hb, hij]
        · by_cases hij : i = j <;> simp [hb, hij]
      · simp only [h1, h2, if_false, Memory.read_cons, ih h4]
        by_cases hij : i = j
        · subst hij
          simp [show k ≠ i by omega]
        · simp [hij]

end Sys2Proof.Machine
end

