-- ==== Sys2Proof/Laws/Operands.lean ====
section
/-! SUPPORT. The bit counts and the mask of the spec's notation (00_scope.md R10). -/

namespace Sys2Proof.Machine

@[simp] theorem toNat_lowBits (v : Word) (n : Nat) : (lowBits v n).toNat = v.toNat % 2 ^ n := by
  simp only [lowBits, BitVec.toNat_ofNat]
  exact Nat.mod_eq_of_lt (lt_of_le_of_lt (Nat.mod_le _ _) v.isLt)

theorem getLsbD_lowBits (v : Word) (n j : Nat) :
    (lowBits v n).getLsbD j = (decide (j < n) && v.getLsbD j) := by
  rw [BitVec.getLsbD, toNat_lowBits, Nat.testBit_mod_two_pow]
  rfl

theorem lowBits_of_le {n : Nat} (h : 64 ≤ n) (v : Word) : lowBits v n = v := by
  apply BitVec.eq_of_toNat_eq
  rw [toNat_lowBits]
  exact Nat.mod_eq_of_lt (lt_of_lt_of_le v.isLt (Nat.pow_le_pow_right (by decide) h))

/-- The lowest set bit at or above `i`, when there is one among the next `fuel`. -/
theorem lowestBitFrom_spec (v : Word) (fuel i : Nat)
    (h : ∃ j, i ≤ j ∧ j < i + fuel ∧ v.getLsbD j = true) :
    v.getLsbD (lowestBitFrom v fuel i) = true ∧
      ∀ j, i ≤ j → j < lowestBitFrom v fuel i → v.getLsbD j = false := by
  induction fuel generalizing i with
  | zero => obtain ⟨j, h1, h2, _⟩ := h; omega
  | succ fuel ih =>
    obtain ⟨j, h1, h2, h3⟩ := h
    by_cases hb : v.getLsbD i = true
    · rw [lowestBitFrom, if_pos hb]
      exact ⟨hb, fun _ _ _ => by omega⟩
    · rw [lowestBitFrom, if_neg hb]
      have hne : i ≠ j := fun e => hb (e ▸ h3)
      obtain ⟨g1, g2⟩ := ih (i + 1) ⟨j, by omega, by omega, h3⟩
      refine ⟨g1, fun k hk hlt => ?_⟩
      by_cases hki : k = i
      · subst hki; simpa using hb
      · exact g2 k (by omega) hlt

/-- `ctz(v)` is the index of the lowest set bit of a nonzero `v` (00_scope.md R10). -/
theorem ctz64_spec {v : Word} (h : v ≠ 0) :
    ctz64 v < 64 ∧ v.getLsbD (ctz64 v) = true ∧ ∀ j, j < ctz64 v → v.getLsbD j = false := by
  obtain ⟨j, hj⟩ : ∃ j, v.getLsbD j = true := by
    by_contra hno
    exact h (BitVec.eq_of_getLsbD_eq fun k _ => by simpa using fun hk => hno ⟨k, hk⟩)
  have hlt : j < 64 := BitVec.lt_of_getLsbD hj
  obtain ⟨h1, h2⟩ := lowestBitFrom_spec v 64 0 ⟨j, by omega, by omega, hj⟩
  exact ⟨BitVec.lt_of_getLsbD h1, h1, fun k hk => h2 k (Nat.zero_le _) hk⟩

/-- The highest set bit at or below `i`, when there is one. -/
theorem highestBitFrom_spec (v : Word) (i : Nat) (h : ∃ j, j ≤ i ∧ v.getLsbD j = true) :
    highestBitFrom v i ≤ i ∧ v.getLsbD (highestBitFrom v i) = true ∧
      ∀ j, highestBitFrom v i < j → j ≤ i → v.getLsbD j = false := by
  induction i with
  | zero =>
    obtain ⟨j, h1, h2⟩ := h
    obtain rfl : j = 0 := by omega
    exact ⟨le_rfl, h2, fun k hk hk' => by simp only [highestBitFrom] at hk; omega⟩
  | succ i ih =>
    obtain ⟨j, h1, h2⟩ := h
    by_cases hb : v.getLsbD (i + 1) = true
    · rw [highestBitFrom, if_pos hb]
      exact ⟨le_rfl, hb, fun _ _ _ => by omega⟩
    · rw [highestBitFrom, if_neg hb]
      have hne : j ≠ i + 1 := fun e => hb (e ▸ h2)
      obtain ⟨g1, g2, g3⟩ := ih ⟨j, by omega, h2⟩
      refine ⟨by omega, g2, fun k hk hle => ?_⟩
      by_cases hki : k = i + 1
      · subst hki; simpa using hb
      · exact g3 k hk (by omega)

/-- `clz64(v)` is 63 less the index of the highest set bit of a nonzero `v` (00_scope.md R10): `v` lies in the binade that the
count says. -/
theorem clz64_spec {v : Word} (h : v ≠ 0) :
    clz64 v ≤ 63 ∧ 2 ^ (63 - clz64 v) ≤ v.toNat ∧ v.toNat < 2 ^ (64 - clz64 v) := by
  obtain ⟨j, hj⟩ : ∃ j, v.getLsbD j = true := by
    by_contra hno
    exact h (BitVec.eq_of_getLsbD_eq fun k _ => by simpa using fun hk => hno ⟨k, hk⟩)
  have hlt : j < 64 := BitVec.lt_of_getLsbD hj
  obtain ⟨h1, h2, h3⟩ := highestBitFrom_spec v 63 ⟨j, by omega, hj⟩
  have e1 : 63 - clz64 v = highestBitFrom v 63 := by unfold clz64; omega
  have e2 : 64 - clz64 v = highestBitFrom v 63 + 1 := by unfold clz64; omega
  refine ⟨by unfold clz64; omega, ?_, ?_⟩
  · rw [e1]; exact Nat.ge_two_pow_of_testBit h2
  · rw [e2]
    refine Nat.lt_pow_two_of_testBit _ fun k hk => ?_
    by_cases hk64 : k ≤ 63
    · exact h3 k (by omega) hk64
    · exact BitVec.getLsbD_of_ge v k (by omega)

/-- `valid(x, bits)` (42_modinv.md R160). -/
theorem validModulus_iff (x : Word) (bits : Nat) :
    validModulus x bits = true ↔ 1 ≤ bits ∧ bits ≤ 64 ∧ x.toNat % 2 ^ bits % 2 = 1 := by
  simp only [validModulus, Bool.and_eq_true, decide_eq_true_eq, and_assoc]
  rfl

end Sys2Proof.Machine
end

