-- ==== Sys2Proof/Laws/Datapath.lean ====
section
/-! SUPPORT. One pass of each datapath loop on naturals, and the loops read from their last pass. -/

namespace Sys2Proof.Machine

/-- Running one more iteration at the end. -/
theorem sqrtLoop_succ (n : Nat) (q : SqrtRegs) : sqrtLoop (n + 1) q = sqrtIter (sqrtLoop n q) := by
  induction n generalizing q with
  | zero => rfl
  | succ n ih => exact ih (sqrtIter q)

/-- The operand register shifts two places out an iteration (41_sqrt.md R120). -/
theorem sqrtIter_xs (q : SqrtRegs) : (sqrtIter q).xs = q.xs <<< 2 := by
  unfold sqrtIter
  simp only
  split <;> rfl

/-- The next digit pair below the shifted remainder, without overlap: `(r << 2) | xs[63:62]` is `4*r + pair`. -/
theorem sqrtIter_remainder (q : SqrtRegs) (hr : q.r.toNat < 2 ^ 64) :
    ((q.r <<< 2) ||| (q.xs >>> 62).setWidth 66).toNat = 4 * q.r.toNat + q.xs.toNat / 2 ^ 62 := by
  have hp : q.xs.toNat / 2 ^ 62 < 2 ^ 2 := by have := q.xs.isLt; omega
  have h1 : q.r.toNat <<< 2 % 2 ^ 66 = q.r.toNat <<< 2 := by
    rw [Nat.shiftLeft_eq]; omega
  have h2 : q.xs.toNat >>> 62 % 2 ^ 66 = q.xs.toNat / 2 ^ 62 := by
    rw [Nat.shiftRight_eq_div_pow]; omega
  rw [BitVec.toNat_or, BitVec.toNat_shiftLeft, BitVec.toNat_setWidth, BitVec.toNat_ushiftRight, h1, h2,
    ← Nat.shiftLeft_add_eq_or_of_lt hp, Nat.shiftLeft_eq]
  omega

/-- One iteration on naturals, while the accumulator is below 2^63 and the remainder at most twice it (41_sqrt.md R120): nothing
wraps. -/
theorem sqrtIter_toNat (q : SqrtRegs) (ha : q.a.toNat < 2 ^ 63) (hr : q.r.toNat ≤ 2 * q.a.toNat) :
    let R := 4 * q.r.toNat + q.xs.toNat / 2 ^ 62
    let E := 4 * q.a.toNat + 1
    ((sqrtIter q).a.toNat, (sqrtIter q).r.toNat) =
      if E ≤ R then (2 * q.a.toNat + 1, R - E) else (2 * q.a.toNat, R) := by
  have hR := sqrtIter_remainder q (by omega)
  have hA : (q.a <<< 1).toNat = 2 * q.a.toNat := by
    rw [BitVec.toNat_shiftLeft, Nat.shiftLeft_eq]; omega
  have hE : ((q.a <<< 1).setWidth 66 <<< 1 + 1#66).toNat = 4 * q.a.toNat + 1 := by
    rw [BitVec.toNat_add, BitVec.toNat_shiftLeft, BitVec.toNat_setWidth, hA, Nat.shiftLeft_eq]
    show (2 * q.a.toNat % 2 ^ 66 * 2 ^ 1 % 2 ^ 66 + 1) % 2 ^ 66 = _
    omega
  have hp : q.xs.toNat / 2 ^ 62 < 4 := by have := q.xs.isLt; omega
  simp only [sqrtIter, BitVec.le_def, hR, hE]
  split
  · rename_i hle
    have h1 : (q.a <<< 1 + 1#64).toNat = 2 * q.a.toNat + 1 := by
      rw [BitVec.toNat_add, hA]
      show (2 * q.a.toNat + 1) % 2 ^ 64 = _
      omega
    have h2 := BitVec.toNat_sub_of_le (BitVec.le_def.mpr (by rw [hR, hE]; exact hle) :
      ((q.a <<< 1).setWidth 66 <<< 1) + 1#66 ≤ (q.r <<< 2) ||| (q.xs >>> 62).setWidth 66)
    rw [hR, hE] at h2
    exact Prod.ext h1 h2
  · exact Prod.ext hA hR

/-- A pass of FRND keeps the canonical form of the digits, and so does the loop while it stays inside DIGBUF. -/
theorem frndLoop_wf {fb capE : Nat} (hc : capE ≤ 128) (fuel : Nat) {q : FrndRegs} (h : q.dig.wf = true) :
    (frndLoop fb capE fuel q).dig.wf = true := by
  induction fuel generalizing q with
  | zero => exact h
  | succ fuel ih =>
    unfold frndLoop
    split
    · exact ih (Memory.wf_write h (by omega))
    · exact h

/-- The effective capacity lies inside DIGBUF (41_sqrt.md R128). -/
theorem effectiveCapacity_le (cap : Nat) : effectiveCapacity cap ≤ 128 := Nat.min_le_right _ _

/-- FRND's DIGBUF is canonical, whatever its operands. -/
theorem frndResult_wf (value : Word) (fb cap : Nat) :
    ∃ dig, (frndResult value fb cap).dig = some dig ∧ dig.wf = true := by
  unfold frndResult
  split
  · exact ⟨[], rfl, rfl⟩
  · exact ⟨_, rfl, frndLoop_wf (effectiveCapacity_le cap) _ rfl⟩

/-- The bit-lifting loop stays where it is once `state` is 1 (42_modinv.md R161). -/
theorem liftLoop_done (xm : Word) (bits fuel : Nat) {q : LiftRegs} (h : q.state = 1) :
    liftLoop xm bits fuel q = q := by
  cases fuel with
  | zero => rfl
  | succ fuel => simp [liftLoop, h]

end Sys2Proof.Machine
end

