-- ==== Sys2Proof/Laws/PerInstr.lean ====
section
/-! SUPPORT. The shape of every command's encoding, per constructor: a legal word whose OP field alone is set
(30_encoding.md R80, R81). -/

namespace Sys2Proof.Laws.Shape

/-- The command is well formed, its word is a legal command word, and the word is its OP field. -/
def Statement (i : Instr) : Prop :=
  i.wf = true ∧ wordWf (encode i) = true ∧ rsvField (encode i) = 0 ∧
    (opField (encode i)).setWidth 64 = encode i

theorem isqrt : Statement .isqrt := by unfold Statement; decide
theorem sqrtq32 : Statement .sqrtq32 := by unfold Statement; decide
theorem psqrt : Statement .psqrt := by unfold Statement; decide
theorem frnd : Statement .frnd := by unfold Statement; decide
theorem minv : Statement .minv := by unfold Statement; decide
theorem minvc : Statement .minvc := by unfold Statement; decide

end Sys2Proof.Laws.Shape
end

