-- ==== Sys2Proof/Laws/Step.lean ====
section
/-! SUPPORT. What a command, the unit's own step and a step of the machine can do, said once. -/

namespace Sys2Proof.Machine

/-- `Exec` as one function (40_command.md R104). -/
def execResult (i : Instr) (a b c : Word) : CommandResult :=
  match i with
  | .isqrt => isqrtResult a
  | .sqrtq32 => sqrtq32Result a
  | .psqrt => psqrtResult a
  | .frnd => frndResult a b.toNat c.toNat
  | .minv => minvResult a b.toNat
  | .minvc => minvcResult a b.toNat

/-- Every command's step is `complete` of its results on the latches (R105). -/
theorem exec_eq_complete (i : Instr) (s : State) :
    exec i s = .next (complete (execResult i s.latA s.latB s.latC) s) := by
  cases i <;> rfl

/-- Everything the unit's own step can do. -/
theorem unitStep_cases (s : State) :
    (s.busy = false ∧ unitStep s = .next s) ∨
    (∃ i, s.busy = true ∧ s.inFlight = .command i ∧
      unitStep s = .next (complete (execResult i s.latA s.latB s.latC) s)) ∨
    (s.busy = true ∧ s.inFlight.toOption = none ∧
      unitStep s = .fault .unassignedOpcodeLatched) := by
  cases hb : s.busy
  · exact .inl ⟨rfl, by simp [unitStep, hb]⟩
  · cases hf : s.inFlight with
    | command i => exact .inr (.inl ⟨i, rfl, rfl, by simp [unitStep, hb, hf, exec_eq_complete]⟩)
    | illegal e => exact .inr (.inr ⟨rfl, rfl, by simp [unitStep, hb, hf]⟩)

/-- Everything a step that answers a next state can be: an access, the unit idling, a completion, or a reset. `rest` is the schedule
left. -/
theorem step_cases {s t : State} (h : step s = .next t) :
    ∃ rest, (s.turns = [] ∧ rest = [] ∨ ∃ x, s.turns = x :: rest) ∧
    ((∃ a, s.turns = .host a :: rest ∧ t = access a { s with turns := rest }) ∨
     (s.turns = .reset :: rest ∧ t = applyReset { s with turns := rest }) ∨
     ((s.turns = [] ∨ s.turns = .unit :: rest) ∧ s.busy = false ∧ t = { s with turns := rest }) ∨
     (∃ i, (s.turns = [] ∨ s.turns = .unit :: rest) ∧ s.busy = true ∧ s.inFlight = .command i ∧
       t = complete (execResult i s.latA s.latB s.latC) { s with turns := rest })) := by
  unfold step at h
  cases ht : s.turns with
  | nil =>
    rw [ht] at h
    refine ⟨[], .inl ⟨rfl, rfl⟩, .inr (.inr ?_)⟩
    have hs : { s with turns := [] } = s := by cases s; simp_all
    obtain ⟨hb, hu⟩ | ⟨i, hb, hf, hu⟩ | ⟨_, _, hu⟩ := unitStep_cases s
    · exact .inl ⟨.inl rfl, hb, by rw [hs]; simpa [hu] using h.symm⟩
    · exact .inr ⟨i, .inl rfl, hb, hf, by rw [hs]; simpa [hu] using h.symm⟩
    · simp [hu] at h
  | cons x rest =>
    rw [ht] at h
    refine ⟨rest, .inr ⟨x, rfl⟩, ?_⟩
    cases x with
    | host a => exact .inl ⟨a, rfl, by simpa [turnStep] using h.symm⟩
    | reset => exact .inr (.inl ⟨rfl, by simpa [turnStep] using h.symm⟩)
    | unit =>
      refine .inr (.inr ?_)
      simp only [turnStep] at h
      obtain ⟨hb, hu⟩ | ⟨i, hb, hf, hu⟩ | ⟨_, _, hu⟩ := unitStep_cases { s with turns := rest }
      · exact .inl ⟨.inr rfl, hb, by simpa [hu] using h.symm⟩
      · exact .inr ⟨i, .inr rfl, hb, hf, by simpa [hu] using h.symm⟩
      · simp [hu] at h

end Sys2Proof.Machine
end

