-- ==== Sys2Proof/Laws/Window.lean ====
section
/-! SUPPORT. The register window: which register an offset touches, the bits a write replaces, and what legality says
(20_memory.md R52 to R58). -/

namespace Sys2Proof.Machine

theorem byteShift_eq (off : Nat) : byteShift off = 8 * (off % 8) := by
  simp only [byteShift, show (7 : Nat) = 2 ^ 3 - 1 from rfl, Nat.and_two_pow_sub_one_eq_mod]

/-- The register of every offset of the window by its 8-byte slot (10_state.md R20). -/
theorem windowReg_eq {off : Nat} (h : off < 256) :
    windowReg off =
      if off / 8 = 0 then .ctrl else if off / 8 = 1 then .status else if off / 8 = 2 then .cmd
      else if off / 8 = 3 then .opa else if off / 8 = 4 then .opb else if off / 8 = 5 then .opc
      else if off / 8 = 6 then .res0 else if off / 8 = 7 then .res1
      else if off / 8 < 16 then .reserved else .digits (8 * (off / 8) - 128) := by
  have all : ∀ o : Fin 256, windowReg o.val =
      if o.val / 8 = 0 then .ctrl else if o.val / 8 = 1 then .status
      else if o.val / 8 = 2 then .cmd
      else if o.val / 8 = 3 then .opa else if o.val / 8 = 4 then .opb
      else if o.val / 8 = 5 then .opc
      else if o.val / 8 = 6 then .res0 else if o.val / 8 = 7 then .res1
      else if o.val / 8 < 16 then .reserved else .digits (8 * (o.val / 8) - 128) := by
    decide +kernel
  exact all ⟨off, h⟩

theorem getLsbD_writeMask (off n j : Nat) :
    (writeMask off n).getLsbD j =
      decide (j < 64 ∧ byteShift off ≤ j ∧ j < byteShift off + 8 * n) := by
  unfold writeMask
  rw [BitVec.getLsbD_shiftLeft, BitVec.getLsbD_ofNat, Nat.testBit_two_pow_sub_one]
  simp only [← decide_not, ← Bool.decide_and, decide_eq_decide]
  omega

/-- The bits a write puts in place (R58). -/
theorem getLsbD_writtenBits (off n : Nat) (v : Word) (j : Nat) :
    (writtenBits off n v).getLsbD j =
      (decide (j < 64 ∧ byteShift off ≤ j ∧ j < byteShift off + 8 * n) &&
        v.getLsbD (j - byteShift off)) := by
  unfold writtenBits
  rw [BitVec.getLsbD_and, BitVec.getLsbD_shiftLeft, getLsbD_writeMask]
  by_cases h : j < 64 ∧ byteShift off ≤ j ∧ j < byteShift off + 8 * n
  · simp [h, show ¬ j < byteShift off by omega]
  · simp [h]

/-- A merged write bit by bit (R58): the written bits where the write touches, the old ones elsewhere. -/
theorem getLsbD_mergeWrite (old : Word) (off n : Nat) (v : Word) {j : Nat} (hj : j < 64) :
    (mergeWrite old off n v).getLsbD j =
      if byteShift off ≤ j ∧ j < byteShift off + 8 * n then v.getLsbD (j - byteShift off)
      else old.getLsbD j := by
  unfold mergeWrite
  rw [BitVec.getLsbD_or, BitVec.getLsbD_and, BitVec.getLsbD_not, getLsbD_writtenBits,
    getLsbD_writeMask]
  by_cases h : byteShift off ≤ j ∧ j < byteShift off + 8 * n <;> simp [h, hj]

/-- What legality says of an access (R53, R54). -/
theorem legal_iff (a : Access) :
    a.legal = true ↔
      (match a.kind with
        | .read => a.size = 1 ∨ a.size = 2 ∨ a.size = 4 ∨ a.size = 8
        | .write => a.size = 4 ∨ a.size = 8) ∧ a.off % a.size = 0 ∧ a.off + a.size ≤ 256 := by
  simp only [Access.legal, Bool.and_eq_true, decide_eq_true_eq, List.contains_iff_mem, and_assoc]
  cases a.kind <;> simp [AccessKind.sizes, Config.windowBytes]

end Sys2Proof.Machine
end

