-- ==== Sys2Proof/Tests/Slice0.lean ====
section
/-! SUPPORT. Tests on single steps, each expected result taken from spec/95_test_vectors.md or written out from the rule it
names; the smoke test of the well-formedness checks; and a witness for every statement that has hypotheses. -/

namespace Sys2Proof.Tests

open Sys2Proof.Machine

/-- The reset state with a command's operands latched. -/
def latched (a b c : Word) : State := { State.reset with latA := a, latB := b, latC := c }

/-- A command in flight in an otherwise reset state, over a schedule. -/
def inFlight (i : Instr) (a b : Word) (turns : List Turn) : State :=
  { State.reset with
    busy := true, latOp := opField (encode i), cmdLast := encode i, latA := a, latB := b
    turns := turns }

/-- The state a command answers, where it answers one. -/
def after (i : Instr) (a b c : Word) : Option State :=
  match exec i (latched a b c) with
  | .next t => some t
  | _ => none

/-- The results a command leaves: RES0, RES1, INVAL. -/
def results (i : Instr) (a b c : Word) : Option (Word × Word × Bool) :=
  (after i a b c).map fun t => (t.res0, t.res1, t.inval)

/-- The bytes of DIGBUF up to the first 0x00, as numbers. -/
def digits (s : State) : List Nat :=
  ((List.range 128).map fun k => (s.digbuf.read k).toNat).takeWhile (· ≠ 0)

/-! ### Well-formedness: each check refuses an ill-formed term (30_encoding.md R81, R82, R86; 20_memory.md R53, R54) -/

theorem test_wf_refuses_rsv : rsvClear 0x13 = false ∧ wordWf 0x13 = false := by decide
theorem test_wf_refuses_op_zero : opAssigned 0x0 = false ∧ wordWf 0x0 = false := by decide
theorem test_wf_refuses_op_seven : opAssigned 0x7 = false ∧ wordWf 0x7 = false := by decide
theorem test_legal_refuses_size : (⟨.read, 0x18, 3, 0⟩ : Access).legal = false := by decide
theorem test_legal_refuses_narrow_write : (⟨.write, 0x18, 2, 1⟩ : Access).legal = false := by decide
theorem test_legal_refuses_misaligned : (⟨.read, 0x1A, 4, 0⟩ : Access).legal = false := by decide
theorem test_legal_refuses_outside : (⟨.read, 0x100, 8, 0⟩ : Access).legal = false := by decide
theorem test_memory_refuses_order : Memory.wf [(3, 0x31), (2, 0x32)] = false := by decide
theorem test_memory_refuses_zero_byte : Memory.wf [(3, 0x00)] = false := by decide
theorem test_memory_refuses_index : Memory.wf [(128, 0x31)] = false := by decide

/-! ### Decoding: the words of R81 written bit by bit, RSV zero and OP in bits [3:0] -/

theorem test_decode_isqrt : decode (0#60 ++ 0b0001#4) = .command .isqrt := by decide
theorem test_decode_sqrtq32 : decode (0#60 ++ 0b0010#4) = .command .sqrtq32 := by decide
theorem test_decode_psqrt : decode (0#60 ++ 0b0011#4) = .command .psqrt := by decide
theorem test_decode_frnd : decode (0#60 ++ 0b0100#4) = .command .frnd := by decide
theorem test_decode_minv : decode (0#60 ++ 0b0101#4) = .command .minv := by decide
theorem test_decode_minvc : decode (0#60 ++ 0b0110#4) = .command .minvc := by decide
theorem test_decode_rsv : decode 0x0000000100000003 = .illegal .reservedBits := by decide
theorem test_decode_op_f : decode 0xF = .illegal .reservedOpcode := by decide
theorem test_decode_two_bytes : decodeBytes [0x01, 0x00] = .illegal .wrongLength := by decide

/-! ### Results (95_test_vectors.md 2.1 to 2.3) -/

theorem test_isqrt_below_square :
    results .isqrt 0xFFFFFFFE00000000 0 0 = some (0xFFFFFFFE, 0, false) := by decide +kernel
theorem test_isqrt_ten : results .isqrt 0xA 0 0 = some (3, 0, false) := by decide +kernel
theorem test_sqrtq32_max :
    results .sqrtq32 0xFFFFFFFFFFFFFFFF 0 0 = some (0xFFFFFFFFFFFFFFFF, 32, false) := by
  decide +kernel
theorem test_sqrtq32_two : results .sqrtq32 2 0 0 = some (0x16A09E667, 32, false) := by
  decide +kernel
theorem test_psqrt_three : results .psqrt 3 0 0 = some (0xDDB3D742C265539D, 63, false) := by
  decide +kernel
theorem test_psqrt_lead_one :
    results .psqrt 0x3FFFFFFFFFFFFFFF 0 0 = some (0xFFFFFFFFFFFFFFFD, 33, false) := by
  decide +kernel
theorem test_frnd_truncated :
    (after .frnd 0xB504F333F9DE6484 63 20).map (fun t => (t.res0, t.res1, digits t)) =
      some (19, 0x51A61365BBA00000,
        [0x34, 0x31, 0x34, 0x32, 0x31, 0x33, 0x35, 0x36, 0x32, 0x33, 0x37, 0x33, 0x30, 0x39,
          0x35, 0x30, 0x34, 0x38, 0x37]) := by decide +kernel
theorem test_frnd_capacity_clamps :
    (after .frnd 0x40000000 32 0xFFFFFFFFFFFFFFFF).map (fun t => (t.res0, t.res1, digits t)) =
      some (2, 0, [0x32, 0x35]) := by decide +kernel
theorem test_minv_masks :
    results .minv 0x9E3779B97F4A7C15 33 0 = some (0x19937733D, 0, false) := by decide +kernel
theorem test_minv_negative_bits :
    results .minv 3 0xFFFFFFFFFFFFFFFF 0 = some (0, 0, true) := by decide +kernel
theorem test_minvc_full :
    results .minvc 0x9E3779B97F4A7C15 64 0 = some (0xF1DE83E19937733D, 0x957BBF35006ED677, false) := by
  decide +kernel
theorem test_minvc_masks :
    results .minvc 0x9E3779B97F4A7C15 32 0 = some (0x9937733D, 0x4C2F1676, false) := by
  decide +kernel

/-! ### Interface and protocol (95_test_vectors.md 2.4) -/

theorem test_word_zero_sets_illop :
    statusWord (access ⟨.write, 0x10, 8, 0⟩ State.reset) = 0x8 := by decide
theorem test_word_rsv_sets_illop :
    statusWord (access ⟨.write, 0x10, 8, 0x13⟩ State.reset) = 0x8 := by decide
theorem test_narrow_command_accepted :
    (fun t : State => (t.busy, t.cmdLast)) (access ⟨.write, 0x10, 4, 0x3⟩ State.reset) =
      (true, 0x3) := by decide
theorem test_upper_half_write_delivers_nothing :
    access ⟨.write, 0x14, 4, 0x3⟩ State.reset =
      { State.reset with response := some .writeOk } := by decide
theorem test_busy_word_sets_cbusy :
    statusWord (access ⟨.write, 0x10, 8, 0x7⟩ { State.reset with busy := true }) = 0x11 := by
  decide
theorem test_status_w1c :
    statusWord (access ⟨.write, 0x08, 8, 0x7⟩ { State.reset with done := true, inval := true }) =
      0x4 := by decide
theorem test_ctrl_reserved_bits :
    ctrlWord (access ⟨.write, 0x00, 8, 0xFFFFFFFFFFFFFFFF⟩ State.reset) = 0x1 := by decide
theorem test_read_upper_half :
    (access ⟨.read, 0x1C, 4, 0⟩ { State.reset with opa := 0x1122334455667788 }).busData =
      0x11223344 := by decide
theorem test_read_byte :
    (access ⟨.read, 0x19, 1, 0⟩ { State.reset with opa := 0x1122334455667788 }).busData = 0x77 := by
  decide
theorem test_write_upper_half :
    (access ⟨.write, 0x1C, 4, 0xAABBCCDD⟩ { State.reset with opa := 0x1122334455667788 }).opa =
      0xAABBCCDD55667788 := by decide
theorem test_misaligned_read_is_error :
    (access ⟨.read, 0x0C, 8, 0⟩ State.reset).response = some (.busError 0x0C 8 .read) := by decide
theorem test_digbuf_word :
    (access ⟨.read, 0x80, 8, 0⟩ { State.reset with digbuf := [(0, 0x31), (1, 0x32)] }).busData =
      0x3231 := by decide
theorem test_irq_rises_with_enable :
    irq (access ⟨.write, 0x00, 8, 1⟩ { State.reset with done := true }) = true := by decide
theorem test_irq_falls_with_ack :
    irq (access ⟨.write, 0x08, 8, 0x1A⟩ { State.reset with ie := true, done := true }) = false := by
  decide

/-- The completion vector of 95_test_vectors.md 2.4: OPA rewritten after acceptance changes nothing. -/
theorem test_completion_after_operand_write :
    (match step { inFlight .psqrt 0x90 0 [.unit] with opa := 0x5 } with
      | .next t => some (t.res0, t.res1, t.inval, t.busy, t.done)
      | _ => none) = some (0xC000000000000000, 0x3C, false, false, true) := by decide +kernel

/-- The first instruction after reset is the placed one: ISQRT of OPA = 0 (70_reset_and_hazards.md R243). -/
theorem test_placed_word_runs_from_reset :
    (match step (State.reset.withFetchWord 64 0x1) with
      | .next t => some (t.res0, t.cmdLast, t.done)
      | _ => none) = some (0, 0x1, true) := by decide +kernel

/-- A placed word that is illegal is delivered and sets ILLOP (R102). -/
theorem test_placed_illegal_word :
    (match step (State.reset.withFetchWord 64 0x7) with
      | .next t => some (statusWord t, t.cmdLast)
      | _ => none) = some (0x8, 0) := by decide

/-- 30_encoding.md R90: `run PSQRT` at index 3. -/
theorem test_run_expansion :
    runStmts .psqrt 3 0 = [.st 8 0x10 (.lit 0x3), .ld 8 0x08 0, .bnz 0 0x1 4] := by decide

/-- A cycle in which the completion is due orders it before the access (60_exceptions.md R205): the read sees DONE. -/
theorem test_completion_before_access :
    (match clockCycle (fun _ _ _ _ => 1) (some ⟨.read, 0x08, 8, 0⟩)
        ⟨inFlight .isqrt 144 0 [], 1⟩ with
      | .next c => some (c.unit.busData, c.unit.res0)
      | _ => none) = some (0x2, 12) := by decide +kernel

/-! ### Witnesses: for each statement with hypotheses, concrete states and operands that meet them, at the boundary of each
clause -/

theorem witness_IllegalWordsAreDropped :
    (0x13 : Word).toNat / 16 ≠ 0 ∧ (0x0 : Word).toNat % 16 = 0 ∧ 7 ≤ (0x7 : Word).toNat % 16 ∧
    State.reset.busy = false ∧ (inFlight .isqrt 0 0 []).busy = true := by decide

theorem witness_BusyWordIsDropped : (inFlight .isqrt 0 0 []).busy = true := by decide

theorem witness_LegalWordIsAccepted : State.reset.busy = false := by decide

theorem witness_StepRunsCommandInFlight :
    (inFlight .minvc 3 8 []).busy = true ∧
    (inFlight .minvc 3 8 []).latOp = BitVec.ofNat 4 (encode .minvc).toNat ∧
    (inFlight .minvc 3 8 []).turns = [] ∧
    (inFlight .minvc 3 8 [.unit, .reset]).turns = .unit :: [.reset] := by decide

theorem witness_IssueThenComplete :
    let s := { State.reset with turns := [.host ⟨.write, 0x10, 8, encode .minv⟩, .unit] }
    s.busy = false ∧ s.turns = .host ⟨.write, 0x10, 8, encode .minv⟩ :: .unit :: [] := by decide

theorem witness_ResultsComeFromLatches :
    (latched 3 8 1).latA = 3 ∧ (latched 3 8 1).latB = 8 ∧ (latched 3 8 1).latC = 1 := by decide

theorem witness_AccessKeepsCommandInFlight : (inFlight .psqrt 2 0 []).busy = true := by decide

theorem witness_ErrorResponseChangesNothing : (⟨.write, 0x18, 1, 1⟩ : Access).legal = false := by
  decide

theorem witness_WholeRegisterReads :
    ∀ off, off ∈ [0x00, 0x08, 0x10, 0x18, 0x20, 0x28, 0x30, 0x38, 0x40, 0x78, 0x80, 0xF8] →
      off % 8 = 0 ∧ off < 256 := by decide

theorem witness_NarrowReadsAreSlices :
    (⟨.read, 0xFF, 1, 0⟩ : Access).legal = true ∧ (⟨.read, 0xFE, 2, 0⟩ : Access).legal = true ∧
    (⟨.read, 0xFC, 4, 0⟩ : Access).legal = true ∧ (⟨.read, 0x00, 8, 0⟩ : Access).legal = true ∧
    127 < 128 := by decide

theorem witness_OperandWritesMergeBytes :
    ((8 = 8 ∧ 0 = 0) ∨ (8 = 4 ∧ (0 = 0 ∨ 0 = 4))) ∧ ((4 = 8 ∧ 4 = 0) ∨ (4 = 4 ∧ (4 = 0 ∨ 4 = 4))) := by
  decide

theorem witness_ReadOnlyWritesAreIgnored :
    (⟨.write, 0x30, 8, 0x1234⟩ : Access).legal = true ∧ (⟨.write, 0xFC, 4, 1⟩ : Access).legal = true ∧
    0x30 ≤ 0x30 ∧ 0x30 ≤ 0xFC := by decide

theorem witness_ConditionPriority :
    (⟨.read, 0x0C, 8, 0⟩ : Access).legal = false ∧
    deliveredWord ⟨.write, 0x10, 8, 0x7⟩ = some 0x7 ∧ deliveredWord ⟨.write, 0x10, 4, 0x6⟩ = some 0x6 ∧
    legalWord 0x7 = false ∧ legalWord 0x6 = true ∧ State.reset.busy = false ∧
    (inFlight .frnd 0 0 []).busy = true := by decide

theorem witness_BusAddressDecode :
    (0x1000 ≤ 0x1000 ∧ 0x1000 ≤ 0x1000 + 0xFF) ∧ (0x1000 ≤ 0x10FF ∧ 0x10FF ≤ 0x1000 + 0xFF) ∧
    (0xFFF < 0x1000) ∧ (0x1000 + 0xFF < 0x1100) := by decide

theorem witness_PsqrtCompletes :
    (latched 0 0 0).latA = 0 ∧ (latched 1 0 0).latA ≠ 0 ∧ (latched 0xFFFFFFFFFFFFFFFF 0 0).latA ≠ 0 := by
  decide

theorem witness_PsqrtOfZero : (latched 0 0 0).latA = 0 := by decide

theorem witness_SqrtCoreClosedForm : (32 = 32 ∨ 32 = 64) ∧ 32 ≤ 32 ∧ (64 = 32 ∨ 64 = 64) ∧ 0 ≤ 64 := by
  decide

theorem witness_SqrtWidthsSuffice : 63 < 64 := by decide

theorem witness_FrndCompletes :
    64 < (latched 5 65 128).latB.toNat ∧ (latched 1 64 128).latB.toNat ≤ 64 ∧
    (latched 5 0 0).latB.toNat ≤ 64 := by decide

theorem witness_FrndDigitCount :
    (latched 0x180000000 32 65).latB.toNat ≤ 64 ∧ 65 ≤ (latched 0x180000000 32 65).latC.toNat ∧
    0x180000000 % 2 ^ 32 = 2 ^ 31 * (2 * 0 + 1) ∧ 0xC000000000000000 % 2 ^ 60 = 0 := by decide

theorem witness_TimesTenIsExact :
    64 ≤ 64 ∧ (0xFFFFFFFFFFFFFFFF : Word).toNat < 2 ^ 64 ∧ 0 ≤ 64 ∧ (0 : Word).toNat < 2 ^ 0 := by decide

/-- The precondition of 42_modinv.md R160 on a state's latched operands. -/
abbrev validOperands (s : State) : Prop :=
  1 ≤ s.latB.toNat ∧ s.latB.toNat ≤ 64 ∧ s.latA.toNat % 2 ^ s.latB.toNat % 2 = 1

theorem witness_MinvCompletes :
    validOperands (latched 0xFFFFFFFFFFFFFFFF 1 0) ∧ validOperands (latched 3 64 0) ∧
    ¬ validOperands (latched 3 0 0) ∧ ¬ validOperands (latched 3 65 0) ∧
    ¬ validOperands (latched 4 8 0) := by decide

theorem witness_MinvcCompletes :
    validOperands (latched 0xFFFFFFFFFFFFFFFF 64 0) ∧ ¬ validOperands (latched 0x100 8 0) := by decide

theorem witness_InverseCommandsAgree :
    results .minv 3 8 0 = some (0xAB, 0, false) ∧ results .minvc 3 8 0 = some (0xAB, 2, false) := by
  decide +kernel

theorem witness_BitLiftEndsInTime :
    validModulus 0xFFFFFFFFFFFFFFFF 64 = true ∧ validModulus 1 1 = true := by decide

theorem witness_CommandFrame : Instr.isqrt ≠ .frnd := by decide

/-- A step that accepts, one that completes, and one that keeps BUSY. -/
theorem witness_BusyChangesOnly :
    (∃ t, step { State.reset with turns := [.host ⟨.write, 0x10, 8, 4⟩] } = .next t ∧ t.busy = true) ∧
    (∃ t, step (inFlight .isqrt 0 0 [.unit]) = .next t ∧ t.busy = false) ∧
    (∃ t, step (inFlight .isqrt 0 0 [.host ⟨.read, 0, 8, 0⟩]) = .next t ∧ t.busy = true) :=
  ⟨⟨_, rfl, by decide⟩, ⟨_, rfl, by decide⟩, ⟨_, rfl, by decide⟩⟩

/-- A step that completes, one that clears DONE, one that keeps it and one that accepts over it. -/
theorem witness_DoneChangesOnly :
    (∃ t, step (inFlight .isqrt 0 0 []) = .next t ∧ t.done = true) ∧
    (∃ t, step { State.reset with done := true, turns := [.host ⟨.write, 0x08, 4, 0x2⟩] } = .next t ∧
      t.done = false) ∧
    (∃ t, step { State.reset with done := true, turns := [.host ⟨.write, 0x08, 4, 0x1C⟩] } = .next t ∧
      t.done = true) ∧
    (∃ t, step { State.reset with done := true, turns := [.host ⟨.write, 0x10, 8, 1⟩] } = .next t ∧
      t.done = false) :=
  ⟨⟨_, rfl, by decide⟩, ⟨_, rfl, by decide⟩, ⟨_, rfl, by decide⟩, ⟨_, rfl, by decide⟩⟩

/-- A step that sets ILLOP, one that keeps it and one that clears it. -/
theorem witness_IllopChangesOnly :
    (∃ t, step { State.reset with turns := [.host ⟨.write, 0x10, 8, 0x10⟩] } = .next t ∧
      t.illop = true) ∧
    (∃ t, step { State.reset with illop := true } = .next t ∧ t.illop = true) ∧
    (∃ t, step { State.reset with illop := true, turns := [.host ⟨.write, 0x08, 8, 0x8⟩] } = .next t ∧
      t.illop = false) :=
  ⟨⟨_, rfl, by decide⟩, ⟨_, rfl, by decide⟩, ⟨_, rfl, by decide⟩⟩

/-- A step that sets CBUSY, one that keeps it and one that clears it. -/
theorem witness_CbusyChangesOnly :
    (∃ t, step (inFlight .minv 3 8 [.host ⟨.write, 0x10, 8, 0x1⟩]) = .next t ∧ t.cbusy = true) ∧
    (∃ t, step { State.reset with cbusy := true } = .next t ∧ t.cbusy = true) ∧
    (∃ t, step { State.reset with cbusy := true, turns := [.host ⟨.write, 0x08, 8, 0x10⟩] } = .next t ∧
      t.cbusy = false) :=
  ⟨⟨_, rfl, by decide⟩, ⟨_, rfl, by decide⟩, ⟨_, rfl, by decide⟩⟩

theorem witness_ResultsChangeOnlyAtCompletion :
    let s := { State.reset with res0 := 12, turns := [.host ⟨.write, 0x30, 8, 1⟩] }
    (∃ t, step s = .next t) ∧ s.nextCompletes = false ∧ s.nextResets = false :=
  ⟨⟨_, rfl⟩, by decide, by decide⟩

theorem witness_LastCommandIsKept :
    let s := { State.reset with turns := [.host ⟨.write, 0x10, 8, 0x6⟩] }
    let r := { State.reset with cmdLast := 6, turns := [.reset] }
    let u := { State.reset with cmdLast := 6, opa := 9 }
    ((∃ t, step s = .next t) ∧ s.nextAcceptance = some 0x6) ∧
    ((∃ t, step r = .next t) ∧ r.nextResets = true) ∧
    ((∃ t, step u = .next t) ∧ u.nextAcceptance = none ∧ u.nextAccess = none ∧ u.nextResets = false) :=
  ⟨⟨⟨_, rfl⟩, by decide⟩, ⟨⟨_, rfl⟩, by decide⟩, ⟨⟨_, rfl⟩, by decide, by decide, by decide⟩⟩

theorem witness_ResetFromAnyState : (inFlight .frnd 5 65 [.reset, .unit]).turns = .reset :: [.unit] := by
  decide

/-- A busy state that meets the invariant: PSQRT of 2 in flight. -/
theorem psqrt_in_flight_inv (turns : List Turn) : (inFlight .psqrt 2 0 turns).Inv where
  busy_not_done _ := rfl
  cmdLast_le := by show (3#64).toNat ≤ 6; decide
  busy_latched _ := ⟨by show 1 ≤ (3#4).toNat ∧ (3#4).toNat ≤ 6; decide, rfl⟩
  digbuf_wf := rfl

theorem witness_StepKeepsInv :
    (inFlight .psqrt 2 0 [.unit]).Inv ∧ ∃ t, step (inFlight .psqrt 2 0 [.unit]) = .next t :=
  ⟨psqrt_in_flight_inv _, _, rfl⟩

theorem witness_StepKeepsDigitString :
    (inFlight .frnd 1 64 []).DigitString ∧ ∃ t, step (inFlight .frnd 1 64 []) = .next t :=
  ⟨⟨0, by decide, fun _ h => absurd h (Nat.not_lt_zero _), fun _ _ => rfl⟩, _, rfl⟩

theorem witness_UnitNeverStops :
    (inFlight .psqrt 2 0 [.unit]).Inv ∧ State.Reachable { State.reset with turns := [.reset] } :=
  ⟨psqrt_in_flight_inv _, .start _⟩

theorem witness_IdleAfterSchedule :
    (inFlight .psqrt 2 0 [.host ⟨.write, 0x10, 8, 1⟩, .reset]).Inv := psqrt_in_flight_inv _

theorem witness_LatencyCountsCycles :
    let c : Clocked := ⟨inFlight .isqrt 144 0 [], 3⟩
    c.unit.busy = true ∧ c.unit.latOp = BitVec.ofNat 4 (encode .isqrt).toNat ∧
      c.left = [none, some (⟨.read, 0x08, 8, 0⟩ : Access)].length + 1 := by decide

/-- The cycle that completes may accept the next command: BUSY is 1 after it, and the count is the new command's latency. -/
theorem witness_LatencyCountsCycles_back_to_back :
    (match clockCycle (fun op _ _ _ => op.toNat) (some ⟨.write, 0x10, 8, 0x5⟩)
        ⟨inFlight .isqrt 144 0 [], 1⟩ with
      | .next c2 => some (c2.unit.busy, c2.unit.res0, c2.left)
      | _ => none) = some (true, 12, 5) := by decide +kernel

/-- An idle clocked unit accepts. -/
theorem witness_LatencyCountsCycles_idle :
    let c : Clocked := ⟨State.reset, 0⟩
    c.unit.busy = false ∧ (cycleAccess (some ⟨.write, 0x10, 8, 0x1⟩) c.unit).busy = true := by decide

theorem witness_ClockedUnitIsAdmitted :
    ∃ c', clockCycle (fun _ _ _ _ => 2) (some ⟨.write, 0x10, 8, 1⟩) ⟨inFlight .isqrt 144 0 [], 1⟩ =
      .next c' := ⟨_, rfl⟩

theorem witness_WaitPollsBusy :
    (waitStmts 0 7)[0]? = (waitStmts 0 7)[0]? ∧ (waitStmts 0 7)[0 + 1]? = (waitStmts 0 7)[1]? := by decide

theorem witness_AckClearsFlags :
    (⟨ackStmts, 0, []⟩ : HostProcess).code[(⟨ackStmts, 0, []⟩ : HostProcess).pc]? = ackStmts[0]? := by decide

theorem witness_HostTurnIsAccess :
    (inFlight .frnd 1 64 [.host ⟨.read, 0x40, 3, 0⟩, .unit]).turns =
      .host ⟨.read, 0x40, 3, 0⟩ :: [.unit] := by decide

theorem witness_UnitStateSuffices :
    let s := inFlight .psqrt 2 0 [.reset]
    let s' := { inFlight .psqrt 2 0 [] with response := some .writeOk }
    s.toUnitState = s'.toUnitState ∧ (∃ u, turnStep .unit s = .next u) ∧
      ∃ u, turnStep (.host ⟨.read, 0x30, 8, 0⟩) s = .next u := ⟨rfl, ⟨_, rfl⟩, ⟨_, rfl⟩⟩

/-- Program P4 of 95_test_vectors.md, statement 8: a misaligned `ld` gets data 0 and the program goes on (assumption 17). -/
theorem test_host_goes_on_after_error :
    (fun r : HostProcess × State => (r.1.pc, r.1.vars, r.2.response))
        (hostStep ⟨[.ld 8 0x0C 3], 0, []⟩ State.reset) =
      (1, [(3, 0)], some (.busError 0x0C 8 .read)) := by decide

end Sys2Proof.Tests
end

/-! ## Proofs: the step's turns and the clocked unit (00_scope.md R8, R12) -/

section
namespace Sys2Proof.Machine

/-! ### One step by the turn that comes next -/

theorem step_of_turns_nil {s : State} (h : s.turns = []) : step s = unitStep s := by
  simp only [step, h]

theorem step_of_turns_cons {s : State} {t : Turn} {rest : List Turn} (h : s.turns = t :: rest) :
    step s = turnStep t { s with turns := rest } := by
  simp only [step, h]

theorem inFlight_of_latOp {s : State} {i : Instr}
    (h : s.latOp = BitVec.ofNat 4 (encode i).toNat) : s.inFlight = .command i :=
  decodeOp_eq_command.mpr (h.trans (BitVec.ofNat_toNat 4 (encode i)))

theorem unitStep_of_inFlight {s : State} {i : Instr} (hb : s.busy = true)
    (hf : s.inFlight = .command i) : unitStep s = exec i s := by
  simp only [unitStep, hb, hf, if_true]

/-- Settles O58: a host turn is the first of the schedule, and its step is the access itself. -/
theorem hostTurnIsAccess : Obligations.HostTurnIsAccess :=
  fun _ _ _ h => step_of_turns_cons h

/-- Settles O8: both schedules lead to the unit's own step, which runs the command in flight. -/
theorem stepRunsCommandInFlight : Obligations.StepRunsCommandInFlight := by
  intro s i rest hb hop
  have hf : s.inFlight = .command i := inFlight_of_latOp hop
  constructor
  · intro ht
    exact (step_of_turns_nil ht).trans (unitStep_of_inFlight hb hf)
  · intro ht
    exact (step_of_turns_cons ht).trans (unitStep_of_inFlight (s := { s with turns := rest }) hb hf)

/-! ### A command in flight through accesses (40_command.md R107, R108) -/

/-- `t` still has in flight the command that `s` has: BUSY is 1 and the latches of 10_state.md R36 are those of `s`. -/
structure KeepsInFlight (s t : State) : Prop where
  busy : t.busy = true
  latOp : t.latOp = s.latOp
  latA : t.latA = s.latA
  latB : t.latB = s.latB
  latC : t.latC = s.latC

theorem KeepsInFlight.refl {s : State} (h : s.busy = true) : KeepsInFlight s s :=
  ⟨h, rfl, rfl, rfl, rfl⟩

theorem KeepsInFlight.trans {s t u : State} (h : KeepsInFlight s t) (h' : KeepsInFlight t u) :
    KeepsInFlight s u :=
  ⟨h'.busy, h'.latOp.trans h.latOp, h'.latA.trans h.latA, h'.latB.trans h.latB,
    h'.latC.trans h.latC⟩

/-- A command word delivered while BUSY is 1 is dropped (40_command.md R101). -/
theorem commandWrite_keepsInFlight (w : Word) {s : State} (hb : s.busy = true) :
    KeepsInFlight s (commandWrite w s) := by
  obtain ⟨_, h⟩ | ⟨hidle, _⟩ | ⟨hidle, _⟩ := commandWrite_cases w s
  · rw [h]
    exact ⟨hb, rfl, rfl, rfl, rfl⟩
  · simp [hb] at hidle
  · simp [hb] at hidle

theorem writeEffect_keepsInFlight (off n : Nat) (v : Word) {s : State} (hb : s.busy = true) :
    KeepsInFlight s (writeEffect off n v s) := by
  obtain ⟨_, h⟩ | h | h | ⟨_, _, _, h⟩ := writeEffect_cases off n v s <;> rw [h]
  case inr.inr.inl => exact commandWrite_keepsInFlight _ hb
  all_goals exact ⟨hb, rfl, rfl, rfl, rfl⟩

theorem access_keepsInFlight (a : Access) {s : State} (hb : s.busy = true) :
    KeepsInFlight s (access a s) := by
  obtain ⟨_, h⟩ | ⟨_, _, h⟩ | ⟨_, _, h⟩ := access_cases a s <;> rw [h]
  · exact ⟨hb, rfl, rfl, rfl, rfl⟩
  · exact ⟨hb, rfl, rfl, rfl, rfl⟩
  · obtain ⟨hb', hop, hA, hB, hC⟩ := writeEffect_keepsInFlight a.off a.size a.data hb
    exact ⟨hb', hop, hA, hB, hC⟩

theorem cycleAccess_keepsInFlight (a : Option Access) {s : State} (hb : s.busy = true) :
    KeepsInFlight s (cycleAccess a s) := by
  cases a with
  | none => exact .refl hb
  | some a => exact access_keepsInFlight a hb

/-- The command in flight has the results it was accepted with. -/
theorem KeepsInFlight.execResult_eq {s t : State} (h : KeepsInFlight s t) (i : Instr) :
    execResult i t.latA t.latB t.latC = execResult i s.latA s.latB s.latC := by
  rw [h.latA, h.latB, h.latC]

/-! ### One cycle of the clocked unit (assumption 6) -/

/-- What a cycle leaves once its completion, if one was due, has left the unit at `u`: the access runs, and the count is
`LAT` of the latches when that access was an acceptance, else one less than `left`. -/
def cycleEnd (lat : Latency) (a : Option Access) (left : Nat) (u : State) : Clocked :=
  let v := cycleAccess a u
  ⟨v, if v.busy && !u.busy then lat v.latOp v.latA v.latB v.latC else left - 1⟩

@[simp] theorem cycleEnd_unit (lat : Latency) (a : Option Access) (left : Nat) (u : State) :
    (cycleEnd lat a left u).unit = cycleAccess a u := rfl

theorem cycleEnd_left_of_busy (lat : Latency) (a : Option Access) (left : Nat) {u : State}
    (hb : u.busy = true) : (cycleEnd lat a left u).left = left - 1 := by
  simp [cycleEnd, hb]

theorem cycleEnd_left_of_accepts (lat : Latency) (a : Option Access) (left : Nat) {u : State}
    (hidle : u.busy = false) (hacc : (cycleAccess a u).busy = true) :
    let v := cycleAccess a u
    (cycleEnd lat a left u).left = lat v.latOp v.latA v.latB v.latC := by
  simp [cycleEnd, hidle, hacc]

theorem clockCycle_of_not_due (lat : Latency) (a : Option Access) {c : Clocked}
    (hd : c.due = false) : clockCycle lat a c = .next (cycleEnd lat a c.left c.unit) := by
  simp [clockCycle, cycleEnd, hd]

theorem clockCycle_of_due (lat : Latency) (a : Option Access) {c : Clocked} {u : State}
    (hd : c.due = true) (hu : unitStep c.unit = .next u) :
    clockCycle lat a c = .next (cycleEnd lat a c.left u) := by
  simp [clockCycle, cycleEnd, hd, hu]

/-- A command with one cycle more left than there are cycles to come is in flight after them, with one cycle left. -/
theorem clockCycles_keepsInFlight (lat : Latency) (as : List (Option Access)) {c : Clocked}
    (hb : c.unit.busy = true) (hleft : c.left = as.length + 1) :
    ∃ c1, clockCycles lat as c = .next c1 ∧ KeepsInFlight c.unit c1.unit ∧ c1.left = 1 := by
  induction as generalizing c with
  | nil => exact ⟨c, rfl, .refl hb, hleft⟩
  | cons a as ih =>
    rw [List.length_cons] at hleft
    have hd : c.due = false := by simp [Clocked.due, hleft]
    have hkeep := cycleAccess_keepsInFlight a hb
    have hcount : (cycleEnd lat a c.left c.unit).left = as.length + 1 := by
      rw [cycleEnd_left_of_busy lat a c.left hb]
      omega
    obtain ⟨c1, hrun, hkeep', hone⟩ := ih hkeep.busy hcount
    refine ⟨c1, ?_, hkeep.trans hkeep', hone⟩
    simpa [clockCycles, clockCycle_of_not_due lat a hd] using hrun

/-- Settles O53: no access reaches the latches of a command in flight while its count runs down, so its completion has the
results it would have had at once; it leaves the unit idle, so the cycle's access can only make it busy by an acceptance. -/
theorem latencyCountsCycles : Obligations.LatencyCountsCycles := by
  constructor
  · intro lat as a c i hb hop hleft
    obtain ⟨c1, hrun, hkeep, hone⟩ := clockCycles_keepsInFlight lat as hb hleft
    have hexec := exec_eq_complete i c1.unit
    have hunit := unitStep_of_inFlight hkeep.busy (inFlight_of_latOp (hkeep.latOp.trans hop))
    have hd : c1.due = true := by simp [Clocked.due, hkeep.busy, hone]
    refine ⟨c1, _, _, hrun, hkeep.busy, hexec,
      clockCycle_of_due lat a hd (hunit.trans hexec), rfl, ?_, ?_⟩
    · rw [exec_eq_complete, hkeep.execResult_eq]
      rfl
    · exact cycleEnd_left_of_accepts lat a c1.left rfl
  · intro lat a c hidle hacc
    have hd : c.due = false := by simp [Clocked.due, hidle]
    exact ⟨_, clockCycle_of_not_due lat a hd, rfl,
      cycleEnd_left_of_accepts lat a c.left hidle hacc⟩

end Sys2Proof.Machine
end

/-! ## Proofs: register writes and the interrupt line (10_state.md R21 to R39) -/

section
namespace Sys2Proof.Machine

/-! ### A legal write, by the register it touches (20_memory.md R58) -/

theorem access_write_of_legal {a : Access} (hk : a.kind = .write) (hl : a.legal = true) (s : State) :
    access a s = { writeEffect a.off a.size a.data s with response := some .writeOk } := by
  simp only [access, hk, hl, if_true]

/-- A write of 4 or 8 bytes at the first byte of a register is legal (20_memory.md R54). -/
theorem legal_write_of_aligned {off n : Nat} (hn : n = 4 ∨ n = 8) (h8 : off % 8 = 0)
    (hend : off + 8 ≤ 256) (v : Word) : (⟨.write, off, n, v⟩ : Access).legal = true :=
  (legal_iff _).mpr ⟨hn, by dsimp only; obtain rfl | rfl := hn <;> omega,
    by dsimp only; omega⟩

/-- A write of 4 bytes at the upper half of a register is legal (20_memory.md R54). -/
theorem legal_write_upper_half {off : Nat} (h8 : off % 8 = 4) (hend : off + 4 ≤ 256) (v : Word) :
    (⟨.write, off, 4, v⟩ : Access).legal = true :=
  (legal_iff _).mpr ⟨.inl rfl, by dsimp only; omega, hend⟩

theorem clearFlags_congr {v w : Word} (h1 : v.getLsbD 1 = w.getLsbD 1)
    (h3 : v.getLsbD 3 = w.getLsbD 3) (h4 : v.getLsbD 4 = w.getLsbD 4) (s : State) :
    clearFlags v s = clearFlags w s := by
  simp only [clearFlags, h1, h3, h4]

theorem clearFlags_zero (s : State) : clearFlags 0 s = s := by
  simp [clearFlags]

/-- A write at STATUS's offset reaches all three W1C bits. -/
theorem writeEffect_status_low {n : Nat} (hn : n = 4 ∨ n = 8) (v : Word) (s : State) :
    writeEffect 0x08 n v s = clearFlags v s := by
  have hbit : ∀ j, j < 32 → (writtenBits 0x08 n v).getLsbD j = v.getLsbD j := by
    intro j hj
    have hin : j < 64 ∧ byteShift 0x08 ≤ j ∧ j < byteShift 0x08 + 8 * n := by
      rw [byteShift_eq]
      omega
    rw [getLsbD_writtenBits, decide_eq_true hin]
    rfl
  exact clearFlags_congr (hbit 1 (by decide)) (hbit 3 (by decide)) (hbit 4 (by decide)) s

/-- A write at STATUS's upper half reaches none of the W1C bits. -/
theorem writeEffect_status_high (n : Nat) (v : Word) (s : State) :
    writeEffect 0x0C n v s = s := by
  have hbit : ∀ j, j < 32 → (writtenBits 0x0C n v).getLsbD j = (0 : Word).getLsbD j := by
    intro j hj
    have hout : ¬ (j < 64 ∧ byteShift 0x0C ≤ j ∧ j < byteShift 0x0C + 8 * n) := by
      rw [byteShift_eq]
      omega
    rw [getLsbD_writtenBits, decide_eq_false hout]
    simp
  exact (clearFlags_congr (hbit 1 (by decide)) (hbit 3 (by decide)) (hbit 4 (by decide)) s).trans
    (clearFlags_zero s)

theorem getLsbD_ctrlWord_zero (s : State) : (ctrlWord s).getLsbD 0 = s.ie := by
  cases h : s.ie <;> simp [ctrlWord, bitAt, h]

/-- A write at CTRL's offset reaches IE. -/
theorem writeEffect_ctrl_low {n : Nat} (hn : n = 4 ∨ n = 8) (v : Word) (s : State) :
    writeEffect 0x00 n v s = { s with ie := v.getLsbD 0 } := by
  have hbit : (mergeWrite (ctrlWord s) 0x00 n v).getLsbD 0 = v.getLsbD 0 := by
    rw [getLsbD_mergeWrite _ _ _ _ (by decide), byteShift_eq, if_pos (by omega)]
  exact congrArg (fun b => { s with ie := b }) hbit

/-- A write at CTRL's upper half does not reach IE. -/
theorem writeEffect_ctrl_high (n : Nat) (v : Word) (s : State) :
    writeEffect 0x04 n v s = s := by
  have hbit : (mergeWrite (ctrlWord s) 0x04 n v).getLsbD 0 = s.ie := by
    rw [getLsbD_mergeWrite _ _ _ _ (by decide), byteShift_eq, if_neg (by omega),
      getLsbD_ctrlWord_zero]
  exact congrArg (fun b => { s with ie := b }) hbit

/-- From RES0 on the window has no register that a write changes (20_memory.md R58). -/
theorem writeEffect_readOnly {off : Nat} (hlo : 0x30 ≤ off) (hhi : off < 256) (n : Nat) (v : Word)
    (s : State) : writeEffect off n v s = s := by
  have hslot : 6 ≤ off / 8 := by omega
  have hreg : windowReg off = .res0 ∨ windowReg off = .res1 ∨ windowReg off = .reserved ∨
      ∃ i, windowReg off = .digits i := by
    rw [windowReg_eq hhi, if_neg (by omega), if_neg (by omega), if_neg (by omega),
      if_neg (by omega), if_neg (by omega), if_neg (by omega)]
    split
    · exact .inl rfl
    · split
      · exact .inr (.inl rfl)
      · split
        · exact .inr (.inr (.inl rfl))
        · exact .inr (.inr (.inr ⟨_, rfl⟩))
  obtain h | h | h | ⟨i, h⟩ := hreg <;> simp only [writeEffect, h]

/-- Settles O18: a legal write at STATUS is its register write, and only the lower half holds W1C bits. -/
theorem statusWriteOneToClear : Obligations.StatusWriteOneToClear := by
  intro s v
  constructor
  · intro n hn
    rw [access_write_of_legal rfl (legal_write_of_aligned hn rfl (by decide) v),
      writeEffect_status_low hn]
    rfl
  · rw [access_write_of_legal rfl (legal_write_upper_half rfl (by decide) v),
      writeEffect_status_high]

/-- Settles O19: a legal write at CTRL is its register write, and only the lower half holds IE. -/
theorem controlWriteStoresEnable : Obligations.ControlWriteStoresEnable := by
  intro s v
  refine ⟨?_, ?_, ?_, ?_, ?_⟩
  · intro n hn
    rw [access_write_of_legal rfl (legal_write_of_aligned hn rfl (by decide) v),
      writeEffect_ctrl_low hn]
  · rw [access_write_of_legal rfl (legal_write_upper_half rfl (by decide) v),
      writeEffect_ctrl_high]
  · show lowBits (ctrlWord s >>> byteShift 0x00) (8 * 8) = _
    rw [lowBits_of_le (by decide)]
    cases h : s.ie <;> simp [ctrlWord, bitAt, h, byteShift]
  · intro hie
    simp [irq, hie]
  · intro hie
    simp [irq, hie]

/-- Settles O20: legality keeps the offset inside the window, where no register from RES0 on takes a write. -/
theorem readOnlyWritesAreIgnored : Obligations.ReadOnlyWritesAreIgnored := by
  intro a s hk hl hlo
  have hhi : a.off < 256 := by
    obtain ⟨hsize, -, hend⟩ := (legal_iff a).mp hl
    rw [hk] at hsize
    omega
  rw [access_write_of_legal hk hl, writeEffect_readOnly hlo hhi]

/-! ### What a command leaves unchanged (10_state.md R38) -/

/-- Only FRND has bytes for DIGBUF (40_command.md R104). -/
theorem execResult_dig_of_ne_frnd {i : Instr} (hi : i ≠ .frnd) (a b c : Word) :
    (execResult i a b c).dig = none := by
  cases i with
  | isqrt => rfl
  | sqrtq32 => rfl
  | psqrt => rfl
  | frnd => exact absurd rfl hi
  | minv =>
    simp only [execResult, minvResult]
    split <;> rfl
  | minvc =>
    simp only [execResult, minvcResult]
    split <;> rfl

/-- Settles O39: every command completes by `complete`, which writes R105's fields alone. -/
theorem commandFrame : Obligations.CommandFrame := by
  intro i s
  refine ⟨_, exec_eq_complete i s, rfl, rfl, rfl, rfl, rfl, rfl, rfl, rfl, rfl, rfl, rfl, rfl, rfl,
    rfl, rfl, ?_⟩
  intro hi k
  rw [complete_digbuf, execResult_dig_of_ne_frnd hi]
  rfl

/-- Settles O23: `irq` is a function of IE and three flags, and each event is known on those four. -/
theorem interruptFollowsFlags : Obligations.InterruptFollowsFlags := by
  intro s i
  have hctrl := fun v => (controlWriteStoresEnable s v).1 8 (.inr rfl)
  have hack := (statusWriteOneToClear s 0x1A).1 8 (.inr rfl)
  refine ⟨⟨_, exec_eq_complete i s, rfl, ?_⟩, ?_, ?_, ?_, ?_⟩
  · simp [irq]
  · simp [hctrl, irq]
  · simp [hctrl, irq]
  · rw [hack]
    simp [irq]
  · exact fun _ => rfl

end Sys2Proof.Machine
end

/-! ## Proofs: what one step does to the unit's state (10_state.md R23 to R28) -/

section
namespace Sys2Proof.Machine

/-! ### Accesses by the command word they deliver (30_encoding.md R83) -/

/-- The access is a legal write of 1 to a bit of STATUS (10_state.md R22). -/
def Access.clears (a : Access) (bit : Nat) : Bool :=
  a.legal && a.kind == .write && a.off == 0x08 && a.data.getLsbD bit

theorem Access.clears_of_off_ne {a : Access} (h : a.off ≠ 0x08) (bit : Nat) :
    a.clears bit = false := by
  simp [Access.clears, h]

theorem Access.clears_of_not_legal_write {a : Access} (h : ¬ (a.legal = true ∧ a.kind = .write))
    (bit : Nat) : a.clears bit = false := by
  simp only [Access.clears, Bool.and_eq_false_iff, beq_eq_false_iff_ne]
  by_cases hl : a.legal = true
  · exact .inl (.inl (.inr fun hk => h ⟨hl, hk⟩))
  · exact .inl (.inl (.inl (by simpa using hl)))

theorem Access.clears_of_status_write {a : Access} (hl : a.legal = true) (hk : a.kind = .write)
    (h : a.off = 0x08) (bit : Nat) : a.clears bit = a.data.getLsbD bit := by
  simp [Access.clears, hl, hk, h]

theorem deliveredWord_eq_some_iff {a : Access} {w : Word} :
    deliveredWord a = some w ↔
      (a.legal = true ∧ a.kind = .write ∧ a.off = 0x10) ∧ lowBits a.data (8 * a.size) = w := by
  simp [deliveredWord, and_assoc]

/-- An access that delivers a word is `command_write` of it (20_memory.md R58). -/
theorem access_of_deliveredWord {a : Access} {w : Word} (h : deliveredWord a = some w) (s : State) :
    access a s = { commandWrite w s with response := some .writeOk } := by
  obtain ⟨⟨hl, hk, hoff⟩, rfl⟩ := deliveredWord_eq_some_iff.mp h
  rw [access_write_of_legal hk hl, hoff]
  rfl

theorem Access.clears_of_deliveredWord {a : Access} {w : Word} (h : deliveredWord a = some w)
    (bit : Nat) : a.clears bit = false := by
  obtain ⟨⟨-, -, hoff⟩, -⟩ := deliveredWord_eq_some_iff.mp h
  exact Access.clears_of_off_ne (by rw [hoff]; decide) bit

/-- `t` is `s` up to an access that delivers no word: only the W1C bits it writes 1 to are cleared. -/
structure WordlessFrame (a : Access) (s t : State) : Prop where
  busy : t.busy = s.busy
  done : t.done = (s.done && !a.clears 1)
  illop : t.illop = (s.illop && !a.clears 3)
  cbusy : t.cbusy = (s.cbusy && !a.clears 4)
  cmdLast : t.cmdLast = s.cmdLast
  latOp : t.latOp = s.latOp
  digbuf : t.digbuf = s.digbuf

/-- An access that clears no flag leaves a `WordlessFrame` where it leaves these fields. -/
theorem WordlessFrame.of_no_clear {a : Access} {s t : State} (hc : ∀ bit, a.clears bit = false)
    (hbusy : t.busy = s.busy) (hdone : t.done = s.done) (hillop : t.illop = s.illop)
    (hcbusy : t.cbusy = s.cbusy) (hlast : t.cmdLast = s.cmdLast) (hop : t.latOp = s.latOp)
    (hdig : t.digbuf = s.digbuf) : WordlessFrame a s t :=
  ⟨hbusy, by simp [hdone, hc], by simp [hillop, hc], by simp [hcbusy, hc], hlast, hop, hdig⟩

/-- STATUS is the register of slot 1 alone (10_state.md R20). -/
theorem windowReg_ne_status {off : Nat} (h : off < 256) (hslot : off / 8 ≠ 1) :
    windowReg off ≠ .status := by
  rw [windowReg_eq h, if_neg hslot]
  split_ifs <;> simp

/-- CMD is the register of slot 2 alone (10_state.md R20). -/
theorem windowReg_ne_cmd {off : Nat} (h : off < 256) (hslot : off / 8 ≠ 2) :
    windowReg off ≠ .cmd := by
  rw [windowReg_eq h, if_neg hslot]
  split_ifs <;> simp

/-- Away from STATUS and CMD a write reaches at most IE and the operand registers (20_memory.md R58). -/
theorem writeEffect_of_other_register {off : Nat} (hs : windowReg off ≠ .status)
    (hc : windowReg off ≠ .cmd) (n : Nat) (v : Word) (s : State) :
    ∃ ie a b c, writeEffect off n v s = { s with ie := ie, opa := a, opb := b, opc := c } := by
  unfold writeEffect
  cases hreg : windowReg off with
  | ctrl => exact ⟨_, s.opa, s.opb, s.opc, rfl⟩
  | status => exact absurd hreg hs
  | cmd => exact absurd hreg hc
  | opa => exact ⟨s.ie, _, s.opb, s.opc, rfl⟩
  | opb => exact ⟨s.ie, s.opa, _, s.opc, rfl⟩
  | opc => exact ⟨s.ie, s.opa, s.opb, _, rfl⟩
  | res0 | res1 | reserved | digits i => exact ⟨s.ie, s.opa, s.opb, s.opc, rfl⟩

/-- A legal write that delivers no word, by its offset: STATUS clears flags, the upper halves of STATUS and CMD do nothing, and
the other registers are no part of the frame. -/
theorem writeEffect_of_no_word {a : Access} (hl : a.legal = true) (hk : a.kind = .write)
    (hw : deliveredWord a = none) (s : State) :
    WordlessFrame a s (writeEffect a.off a.size a.data s) := by
  obtain ⟨hsize, halign, hend⟩ := (legal_iff a).mp hl
  simp only [hk] at hsize
  have hcmd : a.off ≠ 0x10 := fun h => by simp [deliveredWord, hl, hk, h] at hw
  have hhi : a.off < 256 := by omega
  have hmod : a.off % 4 = 0 := by
    obtain h | h := hsize <;> rw [h] at halign <;> omega
  by_cases h1 : a.off / 8 = 1
  · obtain hoff | hoff : a.off = 0x08 ∨ a.off = 0x0C := by omega
    · have hc := Access.clears_of_status_write hl hk hoff
      rw [hoff, writeEffect_status_low hsize]
      exact ⟨rfl, by simp [hc], by simp [hc], by simp [hc], rfl, rfl, rfl⟩
    · rw [hoff, writeEffect_status_high]
      exact .of_no_clear (Access.clears_of_off_ne (by omega)) rfl rfl rfl rfl rfl rfl rfl
  · have hc := Access.clears_of_off_ne (a := a) (by omega)
    by_cases h2 : a.off / 8 = 2
    · obtain hoff : a.off = 0x14 := by omega
      rw [hoff]
      exact .of_no_clear hc rfl rfl rfl rfl rfl rfl rfl
    · obtain ⟨_, _, _, _, he⟩ := writeEffect_of_other_register (windowReg_ne_status hhi h1)
        (windowReg_ne_cmd hhi h2) a.size a.data s
      rw [he]
      exact .of_no_clear hc rfl rfl rfl rfl rfl rfl rfl

theorem access_of_no_word {a : Access} (hw : deliveredWord a = none) (s : State) :
    WordlessFrame a s (access a s) := by
  obtain ⟨hl, h⟩ | ⟨_, hk, h⟩ | ⟨hl, hk, h⟩ := access_cases a s <;> rw [h]
  · exact .of_no_clear (Access.clears_of_not_legal_write (by simp [hl])) rfl rfl rfl rfl rfl rfl rfl
  · exact .of_no_clear (Access.clears_of_not_legal_write (by simp [hk])) rfl rfl rfl rfl rfl rfl rfl
  · obtain ⟨hbusy, hdone, hillop, hcbusy, hlast, hop, hdig⟩ := writeEffect_of_no_word hl hk hw s
    exact ⟨hbusy, hdone, hillop, hcbusy, hlast, hop, hdig⟩

/-! ### The coming step by its access (Sys2Proof/Safety.lean) -/

section
variable {s : State} {a : Access}

theorem nextDelivery_of_access (h : s.nextAccess = some a) : s.nextDelivery = deliveredWord a := by
  simp [State.nextDelivery, h]

theorem nextDelivery_of_no_access (h : s.nextAccess = none) : s.nextDelivery = none := by
  simp [State.nextDelivery, h]

theorem nextClears_of_access (h : s.nextAccess = some a) (bit : Nat) :
    s.nextClears bit = a.clears bit := by
  simp only [State.nextClears, h, Access.clears]

theorem nextClears_of_no_access (h : s.nextAccess = none) (bit : Nat) :
    s.nextClears bit = false := by
  simp only [State.nextClears, h]

theorem nextAcceptance_of_busy (h : s.busy = true) : s.nextAcceptance = none := by
  simp [State.nextAcceptance, h]

theorem nextAcceptance_of_idle (h : s.busy = false) :
    s.nextAcceptance = s.nextDelivery.filter legalWord := by
  simp [State.nextAcceptance, h]

theorem nextAcceptance_of_no_word (h : s.nextDelivery = none) : s.nextAcceptance = none := by
  simp [State.nextAcceptance, h]

end

theorem legalWord_encode (i : Instr) : legalWord (encode i) = true := by
  simp [legalWord, Decoded.toOption]

/-- What the coming step is, in the words of the rules on which events change a register: the word it delivers, the word it
accepts, the W1C bits it clears, whether it completes a command and whether it is a reset. -/
structure Coming (s : State) (delivery acceptance : Option Word) (clears : Nat → Bool)
    (completes resets : Bool) : Prop where
  delivery : s.nextDelivery = delivery
  acceptance : s.nextAcceptance = acceptance
  clears : ∀ bit, s.nextClears bit = clears bit
  completes : s.nextCompletes = completes
  resets : s.nextResets = resets

/-- A scheduled access is neither a completion nor a reset. -/
theorem Coming.of_access {s : State} {a : Access} {rest : List Turn} {acceptance : Option Word}
    (ht : s.turns = .host a :: rest) (hacc : s.nextAcceptance = acceptance) :
    Coming s (deliveredWord a) acceptance a.clears false false := by
  have ha : s.nextAccess = some a := by simp only [State.nextAccess, ht]
  exact ⟨nextDelivery_of_access ha, hacc, nextClears_of_access ha,
    by simp [State.nextCompletes, ht], by simp [State.nextResets, ht]⟩

/-- A step that is no access delivers and accepts nothing and clears no flag by a write. -/
theorem Coming.of_no_access {s : State} {completes resets : Bool} (ha : s.nextAccess = none)
    (hcomp : s.nextCompletes = completes) (hres : s.nextResets = resets) :
    Coming s none none (fun _ => false) completes resets :=
  ⟨nextDelivery_of_no_access ha, nextAcceptance_of_no_word (nextDelivery_of_no_access ha),
    nextClears_of_no_access ha, hcomp, hres⟩

/-! ### The events of the unit -/

/-- Every event a step from `s` to `t` can be, the schedule and the bus response aside: a word dropped while busy (40_command.md
R101), an illegal word (R102), an acceptance (R103), an access that delivers no word, a reset, the unit idling, and a
completion (R105). -/
inductive StepEvent (s t : State) : Prop where
  | busyWord (w : Word) (turns : List Turn) (response : Option Response)
      (coming : Coming s (some w) none (fun _ => false) false false) (busy : s.busy = true)
      (next : t = { s with cbusy := true, turns := turns, response := response })
  | illegalWord (w : Word) (turns : List Turn) (response : Option Response)
      (coming : Coming s (some w) none (fun _ => false) false false) (idle : s.busy = false)
      (illegal : legalWord w = false)
      (next : t = { s with illop := true, turns := turns, response := response })
  | acceptedWord (i : Instr) (turns : List Turn) (response : Option Response)
      (coming : Coming s (some (encode i)) (some (encode i)) (fun _ => false) false false)
      (idle : s.busy = false)
      (next : t = { accept (encode i) s with turns := turns, response := response })
  | wordless (a : Access) (coming : Coming s none none a.clears false false)
      (frame : WordlessFrame a s t)
  | reset (turns : List Turn) (coming : Coming s none none (fun _ => false) false true)
      (next : t = { State.reset with turns := turns })
  | idle (turns : List Turn) (coming : Coming s none none (fun _ => false) false false)
      (idle : s.busy = false) (next : t = { s with turns := turns })
  | completion (i : Instr) (turns : List Turn)
      (coming : Coming s none none (fun _ => false) true false) (busy : s.busy = true)
      (next : t = complete (execResult i s.latA s.latB s.latC) { s with turns := turns })

/-- An access by the word it delivers, and by what becomes of that word. -/
theorem stepEvent_of_access {s : State} {a : Access} {rest : List Turn}
    (ht : s.turns = .host a :: rest) : StepEvent s (access a { s with turns := rest }) := by
  have ha : s.nextAccess = some a := by simp only [State.nextAccess, ht]
  cases hw : deliveredWord a with
  | none =>
    have hc := Coming.of_access ht (nextAcceptance_of_no_word ((nextDelivery_of_access ha).trans hw))
    obtain ⟨hbusy, hdone, hillop, hcbusy, hlast, hop, hdig⟩ :=
      access_of_no_word hw { s with turns := rest }
    exact .wordless a (hw ▸ hc) ⟨hbusy, hdone, hillop, hcbusy, hlast, hop, hdig⟩
  | some w =>
    have hd : s.nextDelivery = some w := (nextDelivery_of_access ha).trans hw
    have coming : ∀ {acc}, s.nextAcceptance = acc →
        Coming s (some w) acc (fun _ => false) false false := fun hacc =>
      have hc := Coming.of_access ht hacc
      ⟨hd, hacc, fun bit => (hc.clears bit).trans (Access.clears_of_deliveredWord hw bit),
        hc.completes, hc.resets⟩
    rw [access_of_deliveredWord hw]
    obtain ⟨hb, h⟩ | ⟨hb, hill, h⟩ | ⟨hb, ⟨i, rfl⟩, h⟩ :=
      commandWrite_cases w { s with turns := rest } <;> rw [h]
    · exact .busyWord w rest _ (coming (nextAcceptance_of_busy hb)) hb rfl
    · have hlegal : legalWord w = false := by simp [legalWord, hill]
      have hnone : s.nextAcceptance = none := by
        rw [nextAcceptance_of_idle (s := s) hb, hd]
        simp [hlegal]
      exact .illegalWord w rest _ (coming hnone) hb hlegal rfl
    · have hsome : s.nextAcceptance = some (encode i) := by
        rw [nextAcceptance_of_idle (s := s) hb, hd]
        simp [legalWord_encode]
      exact .acceptedWord i rest _ (coming hsome) hb rfl

/-- The unit has the next step: the schedule is empty, or its first turn is the unit's. -/
theorem next_of_unit_turn {s : State} {rest : List Turn}
    (ht : s.turns = [] ∨ s.turns = .unit :: rest) :
    s.nextAccess = none ∧ s.nextCompletes = s.busy ∧ s.nextResets = false := by
  obtain ht | ht := ht <;> simp [State.nextAccess, State.nextCompletes, State.nextResets, ht]

theorem next_of_reset_turn {s : State} {rest : List Turn} (ht : s.turns = .reset :: rest) :
    s.nextAccess = none ∧ s.nextCompletes = false ∧ s.nextResets = true := by
  simp [State.nextAccess, State.nextCompletes, State.nextResets, ht]

/-- Every step that answers a next state is one of the events. -/
theorem stepEvent_of_step {s t : State} (h : step s = .next t) : StepEvent s t := by
  obtain ⟨rest, -, ⟨a, ht, rfl⟩ | ⟨ht, rfl⟩ | ⟨ht, hb, rfl⟩ | ⟨i, ht, hb, -, rfl⟩⟩ := step_cases h
  · exact stepEvent_of_access ht
  · obtain ⟨ha, hcomp, hres⟩ := next_of_reset_turn ht
    exact .reset rest (.of_no_access ha hcomp hres) rfl
  · obtain ⟨ha, hcomp, hres⟩ := next_of_unit_turn ht
    exact .idle rest (.of_no_access ha (hcomp.trans hb) hres) hb rfl
  · obtain ⟨ha, hcomp, hres⟩ := next_of_unit_turn ht
    exact .completion i rest (.of_no_access ha (hcomp.trans hb) hres) hb rfl

/-! ### Which events change a flag, `cmd_last` and the results -/

/-- Settles O40, event by event. -/
theorem busyChangesOnly : Obligations.BusyChangesOnly := by
  intro s t h
  cases stepEvent_of_step h with
  | busyWord w _ _ coming hb ht => simp [ht, hb, coming.completes, coming.resets]
  | illegalWord w _ _ coming hidle _ ht => simp [ht, hidle, coming.acceptance]
  | acceptedWord i _ _ coming _ ht => simp [ht, coming.acceptance]
  | wordless a coming hframe =>
    simp [hframe.busy, coming.acceptance, coming.completes, coming.resets]
  | reset _ coming ht => simp [ht, State.reset, coming.acceptance, coming.resets]
  | idle _ coming hidle ht => simp [ht, hidle, coming.acceptance]
  | completion i _ coming _ ht => simp [ht, coming.acceptance, coming.completes]

/-- Settles O41, event by event. -/
theorem doneChangesOnly : Obligations.DoneChangesOnly := by
  intro s t h
  cases stepEvent_of_step h with
  | busyWord w _ _ coming _ ht | illegalWord w _ _ coming _ _ ht | idle _ coming _ ht =>
    simp [ht, coming.acceptance, coming.clears, coming.completes, coming.resets]
  | acceptedWord i _ _ coming _ ht => simp [ht, coming.acceptance, coming.completes]
  | wordless a coming hframe =>
    simp [hframe.done, coming.acceptance, coming.clears, coming.completes, coming.resets]
  | reset _ coming ht => simp [ht, State.reset, coming.completes, coming.resets]
  | completion i _ coming _ ht => simp [ht, coming.completes]

/-- Settles O42, event by event. -/
theorem illopChangesOnly : Obligations.IllopChangesOnly := by
  intro s t h
  cases stepEvent_of_step h with
  | busyWord w _ _ coming hb ht => simp [ht, hb, coming.clears, coming.resets]
  | illegalWord w _ _ coming hidle hill ht => simp [ht, hidle, hill, coming.delivery]
  | acceptedWord i _ _ coming _ ht =>
    simp [ht, coming.delivery, legalWord_encode, coming.clears, coming.resets]
  | wordless a coming hframe => simp [hframe.illop, coming.delivery, coming.clears, coming.resets]
  | reset _ coming ht => simp [ht, State.reset, coming.delivery, coming.resets]
  | idle _ coming _ ht | completion i _ coming _ ht =>
    simp [ht, coming.delivery, coming.clears, coming.resets]

/-- Settles O43, event by event. -/
theorem cbusyChangesOnly : Obligations.CbusyChangesOnly := by
  intro s t h
  cases stepEvent_of_step h with
  | busyWord w _ _ coming hb ht => simp [ht, hb, coming.delivery]
  | illegalWord w _ _ coming hidle _ ht | acceptedWord i _ _ coming hidle ht =>
    simp [ht, hidle, coming.clears, coming.resets]
  | wordless a coming hframe => simp [hframe.cbusy, coming.delivery, coming.clears, coming.resets]
  | reset _ coming ht => simp [ht, State.reset, coming.delivery, coming.resets]
  | idle _ coming _ ht | completion i _ coming _ ht =>
    simp [ht, coming.delivery, coming.clears, coming.resets]

/-- Settles O44: an access keeps the results, and an idle unit keeps everything. -/
theorem resultsChangeOnlyAtCompletion : Obligations.ResultsChangeOnlyAtCompletion := by
  intro s t h hcomp hres
  obtain ⟨rest, -, ⟨a, -, rfl⟩ | ⟨ht, -⟩ | ⟨-, -, rfl⟩ | ⟨i, ht, hb, -⟩⟩ := step_cases h
  · obtain ⟨h0, h1, hinv, hdig, -⟩ := access_keeps a { s with turns := rest }
    exact ⟨h0, h1, hinv, fun k => by rw [hdig]⟩
  · simp [(next_of_reset_turn ht).2.2] at hres
  · exact ⟨rfl, rfl, rfl, fun _ => rfl⟩
  · simp [(next_of_unit_turn ht).2.1, hb] at hcomp

/-- The unit's own steps write no register a host writes (10_state.md R38). -/
theorem step_keeps_host_registers {s t : State} (h : step s = .next t) (ha : s.nextAccess = none)
    (hres : s.nextResets = false) :
    t.opa = s.opa ∧ t.opb = s.opb ∧ t.opc = s.opc ∧ t.ie = s.ie := by
  obtain ⟨rest, -, ⟨a, ht, -⟩ | ⟨ht, -⟩ | ⟨-, -, rfl⟩ | ⟨i, -, -, -, rfl⟩⟩ := step_cases h
  · simp [State.nextAccess, ht] at ha
  · simp [(next_of_reset_turn ht).2.2] at hres
  · exact ⟨rfl, rfl, rfl, rfl⟩
  · exact ⟨rfl, rfl, rfl, rfl⟩

/-- Settles O45: `cmd_last` event by event, and the registers a host writes by the unit's own steps. -/
theorem lastCommandIsKept : Obligations.LastCommandIsKept := by
  intro s t h
  suffices hlast : (∀ w, s.nextAcceptance = some w → t.cmdLast = w) ∧
      (s.nextResets = true → t.cmdLast = 0) ∧
      (s.nextAcceptance = none → s.nextResets = false → t.cmdLast = s.cmdLast) from
    ⟨hlast.1, hlast.2.1, hlast.2.2, step_keeps_host_registers h⟩
  cases stepEvent_of_step h with
  | busyWord w _ _ coming _ ht | illegalWord w _ _ coming _ _ ht =>
    simp [ht, coming.acceptance, coming.resets]
  | acceptedWord i _ _ coming _ ht => simp [ht, coming.acceptance, coming.resets]
  | wordless a coming hframe => simp [hframe.cmdLast, coming.acceptance, coming.resets]
  | reset _ coming ht => simp [ht, State.reset, coming.acceptance, coming.resets]
  | idle _ coming _ ht | completion i _ coming _ ht => simp [ht, coming.acceptance, coming.resets]

end Sys2Proof.Machine
end

/-! ## Proofs: the digits of FRND (41_sqrt.md R128 to R133) -/

section
namespace Sys2Proof.Machine

/-! ### Ten times the fraction and its digit (R133) -/

/-- The shift-and-add product does not wrap in 68 bits (R133). -/
theorem toNat_timesTen (frac : Word) : (timesTen frac).toNat = frac.toNat * 10 := by
  have hf := frac.isLt
  simp only [timesTen, BitVec.toNat_add, BitVec.toNat_shiftLeft, BitVec.toNat_setWidth,
    Nat.shiftLeft_eq]
  omega

/-- The digit of a proper fraction is one decimal digit (R133). -/
theorem timesTen_digit_le_nine {frac : Word} {fb : Nat} (h : frac.toNat < 2 ^ fb) :
    (timesTen frac >>> fb).toNat ≤ 9 := by
  rw [BitVec.toNat_ushiftRight, toNat_timesTen, Nat.shiftRight_eq_div_pow]
  exact Nat.le_of_lt_succ (Nat.div_lt_of_lt_mul (by omega))

/-- A digit's code (R130). -/
theorem toNat_digitByte {t : BitVec 68} {fb : Nat} (h : (t >>> fb).toNat ≤ 9) :
    (digitByte t fb).toNat = 0x30 + (t >>> fb).toNat := by
  simp only [digitByte, BitVec.toNat_add, BitVec.toNat_setWidth]
  show (0x30 + (t >>> fb).toNat % 2 ^ 8) % 2 ^ 8 = _
  omega

/-! ### The digit string the loop builds (R128 to R130, R132) -/

/-- The first `n` bytes of DIGBUF are ASCII digits and every later one is 0x00 (10_state.md R34). -/
structure Memory.Digits (m : Memory) (n : Nat) : Prop where
  digit : ∀ k, k < n → 0x30#8 ≤ m.read k ∧ m.read k ≤ 0x39#8
  zero : ∀ k, n ≤ k → m.read k = 0

theorem State.digitString_iff (s : State) :
    s.DigitString ↔ ∃ n, n ≤ 64 ∧ s.digbuf.Digits n :=
  ⟨fun ⟨n, hn, hd, hz⟩ => ⟨n, hn, hd, hz⟩, fun ⟨n, hn, hd, hz⟩ => ⟨n, hn, hd, hz⟩⟩

theorem Memory.digits_nil : Memory.Digits [] 0 :=
  ⟨fun _ h => absurd h (Nat.not_lt_zero _), fun _ _ => rfl⟩

/-- A digit written at the end makes the string one longer. -/
theorem Memory.Digits.write {m : Memory} {n : Nat} {b : Byte} (h : m.Digits n)
    (hwf : m.wf = true) (hb : 0x30#8 ≤ b ∧ b ≤ 0x39#8) : (m.write n b).Digits (n + 1) := by
  constructor
  · intro k hk
    rw [Memory.read_write hwf]
    split
    · exact hb
    · exact h.digit k (by omega)
  · intro k hk
    rw [Memory.read_write hwf, if_neg (by omega)]
    exact h.zero k (by omega)

/-- What holds of FRND's registers before every pass. The fraction is a proper one and a multiple of `2^n`, since every pass
multiplies it by ten: that is what bounds the number of digits (R132). -/
structure FrndRegs.Inv (fb : Nat) (q : FrndRegs) : Prop where
  n_le : q.n ≤ fb
  frac_lt : q.frac.toNat < 2 ^ fb
  frac_dvd : 2 ^ q.n ∣ q.frac.toNat
  digits : q.dig.Digits q.n
  wf : q.dig.wf = true

/-- A nonzero fraction has a digit left. -/
theorem FrndRegs.Inv.n_lt {fb : Nat} {q : FrndRegs} (h : q.Inv fb) (hne : q.frac ≠ 0) :
    q.n < fb := by
  have hpos : 0 < q.frac.toNat := Nat.pos_of_ne_zero fun h0 => hne (BitVec.eq_of_toNat_eq h0)
  exact (Nat.pow_lt_pow_iff_right (by decide)).mp
    (lt_of_le_of_lt (Nat.le_of_dvd hpos h.frac_dvd) h.frac_lt)

theorem frndIter_frac {fb : Nat} (hfb : fb ≤ 64) (q : FrndRegs) :
    (frndIter fb q).frac.toNat = q.frac.toNat * 10 % 2 ^ fb := by
  have hlt : q.frac.toNat * 10 % 2 ^ fb < 2 ^ 64 :=
    lt_of_lt_of_le (Nat.mod_lt _ (by positivity)) (Nat.pow_le_pow_right (by decide) hfb)
  simp only [frndIter, toNat_timesTen, BitVec.toNat_ofNat, Nat.mod_eq_of_lt hlt]

theorem frndIter_inv {fb : Nat} (hfb : fb ≤ 64) {q : FrndRegs} (h : q.Inv fb) (hn : q.n < 128)
    (hne : q.frac ≠ 0) : (frndIter fb q).Inv fb where
  n_le := h.n_lt hne
  frac_lt := by
    rw [frndIter_frac hfb]
    exact Nat.mod_lt _ (by positivity)
  frac_dvd := by
    rw [frndIter_frac hfb]
    have hten : 2 ^ (q.n + 1) ∣ q.frac.toNat * 10 :=
      pow_succ 2 q.n ▸ mul_dvd_mul h.frac_dvd (by decide)
    exact (Nat.dvd_mod_iff (pow_dvd_pow 2 (h.n_lt hne))).mpr hten
  digits := by
    have hnine := timesTen_digit_le_nine h.frac_lt
    refine h.digits.write h.wf ⟨?_, ?_⟩ <;>
      rw [BitVec.le_def, toNat_digitByte hnine]
    · exact Nat.le_add_right _ _
    · exact Nat.add_le_add_left hnine 0x30
  wf := Memory.wf_write h.wf hn

theorem frndLoop_inv {fb capE : Nat} (hfb : fb ≤ 64) (hcap : capE ≤ 128) (fuel : Nat)
    {q : FrndRegs} (h : q.Inv fb) : (frndLoop fb capE fuel q).Inv fb := by
  induction fuel generalizing q with
  | zero => exact h
  | succ fuel ih =>
    unfold frndLoop
    split
    · rename_i hgo
      exact ih (frndIter_inv hfb h (by omega) hgo.2)
    · exact h

theorem frndRun_inv {fb : Nat} (hfb : fb ≤ 64) (value : Word) (cap : Nat) :
    (frndRun value fb cap).Inv fb :=
  frndLoop_inv hfb (effectiveCapacity_le cap) _
    { n_le := Nat.zero_le _
      frac_lt := by
        rw [toNat_lowBits]
        exact Nat.mod_lt _ (by positivity)
      frac_dvd := by
        rw [pow_zero]
        exact one_dvd _
      digits := Memory.digits_nil
      wf := rfl }

/-- FRND's DIGBUF is a string of at most 64 digits, whatever its operands (R130 to R132). -/
theorem frndResult_digits (value : Word) (fb cap : Nat) :
    ∃ dig n, (frndResult value fb cap).dig = some dig ∧ n ≤ 64 ∧ dig.Digits n := by
  unfold frndResult
  split
  · exact ⟨[], 0, rfl, Nat.zero_le _, Memory.digits_nil⟩
  · rename_i hfb
    have hinv := frndRun_inv (not_lt.mp hfb) value cap
    exact ⟨_, _, rfl, hinv.n_le.trans (not_lt.mp hfb), hinv.digits⟩

end Sys2Proof.Machine
end

/-! ## Proofs: the invariants (10_state.md R34, R40 to R42) -/

section
namespace Sys2Proof.Machine

/-- Settles O46: DIGBUF lists no byte, and the other values are written out in the reset state. -/
theorem resetValues : Obligations.ResetValues :=
  ⟨rfl, rfl, rfl, rfl, rfl, rfl, rfl, rfl, rfl, rfl, rfl, rfl, fun k => Memory.read_nil k, rfl, rfl,
    rfl, rfl, rfl⟩

/-- A reset unit meets the invariant, whatever is scheduled. -/
theorem inv_reset (turns : List Turn) : State.Inv { State.reset with turns := turns } where
  busy_not_done hb := by cases hb
  cmdLast_le := Nat.zero_le _
  busy_latched hb := by cases hb
  digbuf_wf := rfl

theorem digitString_of_digbuf_nil {s : State} (h : s.digbuf = []) : s.DigitString :=
  s.digitString_iff.mpr ⟨0, Nat.zero_le _, h ▸ Memory.digits_nil⟩

/-- Settles O48: the reset unit is idle and its DIGBUF lists no byte. -/
theorem resetMeetsInvariants : Obligations.ResetMeetsInvariants :=
  ⟨inv_reset [], digitString_of_digbuf_nil rfl⟩

theorem opField_encode_bounds (i : Instr) :
    1 ≤ (opField (encode i)).toNat ∧ (opField (encode i)).toNat ≤ 6 := by
  cases i <;> decide

/-- An acceptance latches an assigned opcode (40_command.md R103). -/
theorem latchedOpcode_accept (i : Instr) (s : State) : latchedOpcode (accept (encode i) s) :=
  opField_encode_bounds i

theorem opField_encode_setWidth (i : Instr) : (opField (encode i)).setWidth 64 = encode i := by
  cases i <;> rfl

theorem encode_le_six (i : Instr) : (encode i).toNat ≤ 6 := by
  cases i <;> decide

/-- Every command leaves DIGBUF canonical. -/
theorem complete_digbuf_wf (i : Instr) (a b c : Word) {s : State} (h : s.digbuf.wf = true) :
    (complete (execResult i a b c) s).digbuf.wf = true := by
  rw [complete_digbuf]
  by_cases hi : i = .frnd
  · obtain ⟨dig, hdig, hwf⟩ := frndResult_wf a b.toNat c.toNat
    simpa [hi, execResult, hdig] using hwf
  · rw [execResult_dig_of_ne_frnd hi]
    exact h

/-- Settles O49, event by event: only an acceptance sets BUSY, and it clears DONE and writes the latch and `cmd_last`; only a
completion writes DIGBUF, and it clears BUSY. -/
theorem stepKeepsInv : Obligations.StepKeepsInv := by
  intro s t hs h
  obtain ⟨hdone, hlast, hlatch, hwf⟩ := hs
  cases stepEvent_of_step h with
  | busyWord w _ _ _ _ ht | illegalWord w _ _ _ _ _ ht | idle _ _ _ ht =>
    subst ht
    exact ⟨hdone, hlast, hlatch, hwf⟩
  | acceptedWord i _ _ _ _ ht =>
    subst ht
    exact ⟨fun _ => rfl, encode_le_six i,
      fun _ => ⟨latchedOpcode_accept i s, (opField_encode_setWidth i).symm⟩, hwf⟩
  | wordless a _ hframe =>
    obtain ⟨hbusy, hdone', -, -, hlast', hop, hdig⟩ := hframe
    refine ⟨fun hb => ?_, hlast' ▸ hlast, fun hb => ?_, hdig ▸ hwf⟩
    · rw [hdone', hdone (hbusy ▸ hb), Bool.false_and]
    · rw [latchedOpcode, hop, hlast']
      exact hlatch (hbusy ▸ hb)
  | reset turns _ ht => exact ht ▸ inv_reset turns
  | completion i _ _ _ ht =>
    subst ht
    exact ⟨fun hb => by simp at hb, hlast, fun hb => by simp at hb,
      complete_digbuf_wf i _ _ _ hwf⟩

/-- A state with the DIGBUF of another has its digit string. -/
theorem digitString_of_digbuf_eq {s t : State} (hs : s.DigitString) (h : t.digbuf = s.digbuf) :
    t.DigitString := by
  rw [State.digitString_iff] at hs ⊢
  rwa [h]

/-- FRND writes a new digit string, and every other command keeps the old one. -/
theorem digitString_complete (i : Instr) (a b c : Word) {s : State} (hs : s.DigitString) :
    (complete (execResult i a b c) s).DigitString := by
  by_cases hi : i = .frnd
  · subst hi
    obtain ⟨dig, n, hdig, hn, hd⟩ := frndResult_digits a b.toNat c.toNat
    refine (State.digitString_iff _).mpr ⟨n, hn, ?_⟩
    simpa [execResult, hdig] using hd
  · refine digitString_of_digbuf_eq hs ?_
    rw [complete_digbuf, execResult_dig_of_ne_frnd hi]
    rfl

/-- Settles O50: an access and an idle unit keep DIGBUF, a reset empties it, and a completion leaves a digit string. -/
theorem stepKeepsDigitString : Obligations.StepKeepsDigitString := by
  intro s t hs h
  obtain ⟨rest, -, ⟨a, -, rfl⟩ | ⟨-, rfl⟩ | ⟨-, -, rfl⟩ | ⟨i, -, -, -, rfl⟩⟩ := step_cases h
  · obtain ⟨-, -, -, hdig, -⟩ := access_keeps a { s with turns := rest }
    exact digitString_of_digbuf_eq hs hdig
  · exact digitString_of_digbuf_nil rfl
  · exact digitString_of_digbuf_eq hs rfl
  · exact digitString_complete i _ _ _ (digitString_of_digbuf_eq hs rfl)

/-! ### No step stops the unit (93_implementation_defined.md) -/

/-- The six opcodes are those the decoder knows (30_encoding.md R81). -/
theorem inFlight_of_latchedOpcode {s : State} (h : latchedOpcode s) :
    ∃ i, s.inFlight = .command i := by
  have all : ∀ op : BitVec 4, 1 ≤ op.toNat → op.toNat ≤ 6 → (decodeOp op).toOption ≠ none := by
    decide
  cases hd : s.inFlight with
  | command i => exact ⟨i, rfl⟩
  | illegal e => exact absurd (congrArg Decoded.toOption hd) (all s.latOp h.1 h.2)

/-- The unit's own step answers wherever a busy unit has a legal opcode latched. -/
theorem unitStep_answers {s : State} (h : s.busy = true → latchedOpcode s) :
    ∃ t, unitStep s = .next t := by
  obtain ⟨-, hu⟩ | ⟨i, -, -, hu⟩ | ⟨hb, hnone, -⟩ := unitStep_cases s
  · exact ⟨_, hu⟩
  · exact ⟨_, hu⟩
  · obtain ⟨i, hi⟩ := inFlight_of_latchedOpcode (h hb)
    simp [hi, Decoded.toOption] at hnone

theorem step_answers_of_inv {s : State} (hs : s.Inv) : ∃ t, step s = .next t := by
  have hop : s.busy = true → latchedOpcode s := fun hb => (hs.busy_latched hb).1
  cases ht : s.turns with
  | nil =>
    rw [step_of_turns_nil ht]
    exact unitStep_answers hop
  | cons turn rest =>
    rw [step_of_turns_cons ht]
    cases turn with
    | host a => exact ⟨_, rfl⟩
    | unit => exact unitStep_answers (s := { s with turns := rest }) hop
    | reset => exact ⟨_, rfl⟩

/-- Every reachable state meets the invariant. -/
theorem State.Reachable.inv {s : State} (h : s.Reachable) : s.Inv := by
  induction h with
  | start turns => exact inv_reset turns
  | next _ hstep ih => exact stepKeepsInv _ _ ih hstep

/-- Settles O51: the invariant rules out the one fault, and reachable states meet the invariant. -/
theorem unitNeverStops : Obligations.UnitNeverStops :=
  ⟨fun _ hs => step_answers_of_inv hs, fun _ hr => step_answers_of_inv hr.inv⟩

/-! ### The unit's state suffices (10_state.md R42) -/

section
variable {s s' : State}

/-- A read sees the unit's state alone. -/
theorem readValue_congr (h : s.toUnitState = s'.toUnitState) (off n : Nat) :
    readValue s off n = readValue s' off n := by
  obtain ⟨u, _, _⟩ := s
  obtain ⟨_, _, _⟩ := s'
  obtain rfl : u = _ := h
  cases hreg : windowReg off <;> simp only [readValue, hreg] <;> rfl

theorem commandWrite_congr (h : s.toUnitState = s'.toUnitState) (w : Word) :
    (commandWrite w s).toUnitState = (commandWrite w s').toUnitState := by
  obtain ⟨u, _, _⟩ := s
  obtain ⟨_, _, _⟩ := s'
  obtain rfl : u = _ := h
  unfold commandWrite
  cases u.busy
  · cases decode w <;> rfl
  · rfl

theorem writeEffect_congr (h : s.toUnitState = s'.toUnitState) (off n : Nat) (v : Word) :
    (writeEffect off n v s).toUnitState = (writeEffect off n v s').toUnitState := by
  have hcmd := commandWrite_congr h (lowBits v (8 * n))
  obtain ⟨u, _, _⟩ := s
  obtain ⟨_, _, _⟩ := s'
  obtain rfl : u = _ := h
  unfold writeEffect
  cases windowReg off with
  | cmd =>
    dsimp only
    split
    · exact hcmd
    · rfl
  | _ => rfl

/-- An access does the same to the unit, and is answered the same (20_memory.md R55 to R58). -/
theorem access_congr (h : s.toUnitState = s'.toUnitState) (a : Access) :
    (access a s).toUnitState = (access a s').toUnitState ∧
      (access a s).response = (access a s').response := by
  cases hl : a.legal
  · simp [access, hl, h]
  · cases hk : a.kind
    · simp [access, hl, hk, h, readValue_congr h]
    · rw [access_write_of_legal hk hl, access_write_of_legal hk hl]
      exact ⟨writeEffect_congr h a.off a.size a.data, rfl⟩

/-- The unit's own step does the same to the unit (40_command.md R104, R105). -/
theorem unitStep_congr (h : s.toUnitState = s'.toUnitState) {u : State}
    (hu : unitStep s = .next u) :
    ∃ u', unitStep s' = .next u' ∧ u'.toUnitState = u.toUnitState := by
  have hbusy : s.busy = s'.busy := congrArg UnitState.busy h
  have hop : s.inFlight = s'.inFlight := congrArg (decodeOp ∘ UnitState.latOp) h
  obtain ⟨hb, hs⟩ | ⟨i, hb, hf, hs⟩ | ⟨-, -, hs⟩ := unitStep_cases s
  · obtain rfl : s = u := by simpa [hs] using hu
    exact ⟨s', by simp [unitStep, ← hbusy, hb], h.symm⟩
  · obtain rfl : complete (execResult i s.latA s.latB s.latC) s = u := by simpa [hs] using hu
    refine ⟨_, (unitStep_of_inFlight (hbusy ▸ hb) (hop ▸ hf)).trans (exec_eq_complete i s'), ?_⟩
    simp only [complete, h]
  · simp [hs] at hu

end

/-- Settles O59, turn by turn. -/
theorem unitStateSuffices : Obligations.UnitStateSuffices := by
  intro s s' u t h hu
  cases t with
  | host a =>
    obtain rfl : access a s = u := by simpa [turnStep] using hu
    obtain ⟨hunit, hresp⟩ := access_congr h a
    exact ⟨_, rfl, hunit.symm, fun _ _ => hresp.symm⟩
  | unit =>
    obtain ⟨u', hu', hunit⟩ := unitStep_congr h hu
    exact ⟨u', hu', hunit, fun _ hhost => by cases hhost⟩
  | reset =>
    obtain rfl : applyReset s = u := by simpa [turnStep] using hu
    exact ⟨applyReset s', rfl, rfl, fun _ hhost => by cases hhost⟩

end Sys2Proof.Machine
end

/-! ## Proofs: host accesses to the register window (20_memory.md R52 to R61) -/

section
namespace Sys2Proof.Machine

/-! ### Legality and the error response (R53 to R56) -/

theorem access_of_not_legal {a : Access} (hl : a.legal = false) (s : State) :
    access a s = { s with response := some (.busError a.off a.size a.kind) } := by
  simp [access, hl, errorResponse]

theorem access_read_of_legal {off n : Nat} {v : Word}
    (hl : (⟨.read, off, n, v⟩ : Access).legal = true) (s : State) :
    access ⟨.read, off, n, v⟩ s = { s with response := some (.readOk (readValue s off n)) } := by
  simp only [access, hl, if_true]

theorem access_response_eq_busError_iff (a : Access) (s : State) :
    (access a s).response = some (.busError a.off a.size a.kind) ↔ ¬ a.legal = true := by
  obtain ⟨hl, h⟩ | ⟨hl, -, h⟩ | ⟨hl, -, h⟩ := access_cases a s
  · simp [h, hl]
  · simp [h, hl]
  · simp [h, hl]

/-- Settles O13: the error response says that the access is not legal, and legality is R53 and R54. -/
theorem legalAccessesExactly : Obligations.LegalAccessesExactly := by
  intro off n v s
  constructor
  · exact (access_response_eq_busError_iff ⟨.read, off, n, v⟩ s).trans (not_congr (legal_iff _))
  · exact (access_response_eq_busError_iff ⟨.write, off, n, v⟩ s).trans (not_congr (legal_iff _))

/-- Settles O14: the error response replaces the bus response alone, which `irq` does not read. -/
theorem errorResponseChangesNothing : Obligations.ErrorResponseChangesNothing := by
  intro a s hl
  have h := access_of_not_legal hl s
  refine ⟨h, ?_, ?_⟩
  · rw [h]
    rfl
  · rw [h]
    rfl

/-! ### The register at an offset (R52) -/

theorem windowReg_reserved {off : Nat} (hlo : 0x40 ≤ off) (hhi : off < 0x80) :
    windowReg off = .reserved := by
  rw [windowReg_eq (by omega)]
  repeat rw [if_neg (by omega)]
  rw [if_pos (by omega)]

theorem windowReg_digits {off : Nat} (hlo : 0x80 ≤ off) (hhi : off < 256) :
    windowReg off = .digits (off - off % 8 - 0x80) := by
  have hslot : 8 * (off / 8) - 128 = off - off % 8 - 0x80 := by omega
  rw [windowReg_eq hhi, hslot]
  repeat rw [if_neg (by omega)]

/-- All offsets of a slot touch one register. -/
theorem windowReg_eq_of_slot {off off' : Nat} (h : off < 256) (hslot : off / 8 = off' / 8) :
    windowReg off = windowReg off' := by
  rw [windowReg_eq h, windowReg_eq (off := off') (by omega), hslot]

/-! ### Reads of registers (R57, R59, R60) -/

/-- An 8-byte read at a register is legal (R53). -/
theorem legal_read_of_aligned {off : Nat} (h8 : off % 8 = 0) (h : off < 256) (v : Word) :
    (⟨.read, off, 8, v⟩ : Access).legal = true :=
  (legal_iff _).mpr ⟨by simp, h8, by dsimp only; omega⟩

/-- A byte read inside the window is legal (R53). -/
theorem legal_read_byte {off : Nat} (h : off < 256) (v : Word) :
    (⟨.read, off, 1, v⟩ : Access).legal = true :=
  (legal_iff _).mpr ⟨by simp, Nat.mod_one _, h⟩

theorem readValue_of_aligned {off : Nat} (h8 : off % 8 = 0) (s : State) :
    readValue s off 8 = readReg s (windowReg off) := by
  rw [readValue, lowBits_of_le (by decide), byteShift_eq, h8]
  exact BitVec.ushiftRight_zero _

theorem getLsbD_readValue (s : State) (off n j : Nat) :
    (readValue s off n).getLsbD j =
      (decide (j < 8 * n) && (readReg s (windowReg off)).getLsbD (8 * (off % 8) + j)) := by
  rw [readValue, getLsbD_lowBits, BitVec.getLsbD_ushiftRight, byteShift_eq]

theorem toNat_ctrlWord (s : State) : (ctrlWord s).toNat = s.ie.toNat := by
  cases h : s.ie <;> simp [ctrlWord, bitAt, h]

/-- STATUS is the sum of its flags at their places (10_state.md R22). -/
theorem toNat_statusWord (s : State) :
    (statusWord s).toNat = s.busy.toNat + 2 * s.done.toNat + 4 * s.inval.toNat
      + 8 * s.illop.toNat + 16 * s.cbusy.toNat := by
  have all : ∀ b d i l c : Bool,
      (bitAt b 0 ||| bitAt d 1 ||| bitAt i 2 ||| bitAt l 3 ||| bitAt c 4).toNat =
        b.toNat + 2 * d.toNat + 4 * i.toNat + 8 * l.toNat + 16 * c.toNat := by
    decide
  exact all s.busy s.done s.inval s.illop s.cbusy

/-! ### Little-endian bytes of a word (R60) -/

/-- Byte `j` of the word of some bytes is the `j`-th of them, 0x00 past their end. -/
theorem byte_wordOfBytes (bs : List Byte) {j : Nat} (hj : j < 8) :
    (wordOfBytes bs >>> (8 * j)).setWidth 8 = bs.getD j 0 := by
  induction bs generalizing j with
  | nil => simp [wordOfBytes]
  | cons b bs ih =>
    cases j with
    | zero =>
      apply BitVec.eq_of_getLsbD_eq
      intro k hk
      simp [wordOfBytes, hk]
    | succ j =>
      rw [List.getD_cons_succ, ← ih (by omega)]
      apply BitVec.eq_of_getLsbD_eq
      intro k hk
      have hb : b.getLsbD (8 * (j + 1) + k) = false := BitVec.getLsbD_of_ge b _ (by omega)
      have hplace : 8 * (j + 1) + k < 64 ∧ ¬ 8 * (j + 1) + k < 8 := by omega
      have hprev : 8 * (j + 1) + k - 8 = 8 * j + k := by omega
      simp only [wordOfBytes, BitVec.getLsbD_setWidth, BitVec.getLsbD_ushiftRight,
        BitVec.getLsbD_or, BitVec.getLsbD_shiftLeft, hb, hplace, hprev, decide_true, decide_false,
        Bool.and_false, Bool.false_or, Bool.not_false, Bool.true_and]

/-- Byte `j` of the word of DIGBUF at `i` is `DIGBUF[i + j]` (R57). -/
theorem Memory.byte_readWord (m : Memory) (i : Nat) {j : Nat} (hj : j < 8) :
    (m.readWord i >>> (8 * j)).setWidth 8 = m.read (i + j) := by
  rw [Memory.readWord, byte_wordOfBytes _ hj]
  simp [List.getD, hj]

theorem lowBits_eight (v : Word) : lowBits v 8 = (v.setWidth 8).setWidth 64 := by
  apply BitVec.eq_of_getLsbD_eq
  intro j hj
  rw [getLsbD_lowBits, BitVec.getLsbD_setWidth, BitVec.getLsbD_setWidth, decide_eq_true hj,
    Bool.true_and]

/-- A byte read at 0x80 + i sees `DIGBUF[i]` (R57, R60). -/
theorem readValue_digit {i : Nat} (hi : i < 128) (s : State) :
    readValue s (0x80 + i) 1 = (s.digbuf.read i).setWidth 64 := by
  have hstart : 0x80 + i - (0x80 + i) % 8 - 0x80 + (0x80 + i) % 8 = i := by omega
  rw [readValue, windowReg_digits (by omega) (by omega), byteShift_eq, lowBits_eight]
  simp only [readReg]
  rw [Memory.byte_readWord _ _ (by omega), hstart]

/-- Settles O15: an 8-byte read answers its whole register, and the map says which register that is. -/
theorem wholeRegisterReads : Obligations.WholeRegisterReads := by
  intro s v off h8 hoff
  refine ⟨readReg s (windowReg off), ?_, ?_, ?_, ?_, ?_, ?_, ?_, ?_, ?_, ?_, ?_⟩
  · rw [access_read_of_legal (legal_read_of_aligned h8 hoff v), readValue_of_aligned h8]
  · rintro rfl
    exact toNat_ctrlWord s
  · rintro rfl
    exact toNat_statusWord s
  case refine_10 =>
    intro hlo hhi
    rw [windowReg_reserved hlo hhi]
    rfl
  case refine_11 =>
    intro hlo j hj
    rw [windowReg_digits hlo hoff, h8]
    exact Memory.byte_readWord s.digbuf (off - 0x80) hj
  all_goals
    rintro rfl
    rfl

/-- Settles O16: a read of any size takes its bits from the register that the 8-byte read of its slot answers. -/
theorem narrowReadsAreSlices : Obligations.NarrowReadsAreSlices := by
  intro s
  constructor
  · intro off n v hl
    obtain ⟨hsize, -, hend⟩ := (legal_iff _).mp hl
    dsimp only at hsize hend
    have hoff : off < 256 := by omega
    have h8 : (off - off % 8) % 8 = 0 := by omega
    refine ⟨_, access_read_of_legal hl s, fun j => ?_⟩
    rw [access_read_of_legal (legal_read_of_aligned h8 (by omega) v), readValue_of_aligned h8,
      windowReg_eq_of_slot (off' := off) (by omega) (by omega)]
    exact getLsbD_readValue s off n j
  · intro i hi
    rw [access_read_of_legal (legal_read_byte (by omega) 0), readValue_digit hi]
    rfl

/-! ### Writes of operand registers (R58) -/

/-- A write of a whole register, or of its lower or upper half, is legal (R54). -/
theorem legal_write_in_register {base n k : Nat}
    (hnk : (n = 8 ∧ k = 0) ∨ (n = 4 ∧ (k = 0 ∨ k = 4))) (h8 : base % 8 = 0) (hend : base + 8 ≤ 256) (v : Word) :
    (⟨.write, base + k, n, v⟩ : Access).legal = true := by
  obtain ⟨rfl, rfl⟩ | ⟨rfl, rfl | rfl⟩ := hnk
  · exact legal_write_of_aligned (.inr rfl) h8 hend v
  · exact legal_write_of_aligned (.inl rfl) h8 (by omega) v
  · exact legal_write_upper_half (by omega) (by omega) v

/-- Where a merge puts the written bytes depends on the place inside the register alone. -/
theorem mergeWrite_add_base (old : Word) {base : Nat} (h8 : base % 8 = 0) (k n : Nat) (v : Word) :
    mergeWrite old (base + k) n v = mergeWrite old k n v := by
  have hshift : byteShift (base + k) = byteShift k := by
    rw [byteShift_eq, byteShift_eq]
    omega
  simp only [mergeWrite, writtenBits, writeMask, hshift]

section
variable {k : Nat} (hk : k < 8) (n : Nat) (v : Word) (s : State)
include hk

theorem writeEffect_opa :
    writeEffect (0x18 + k) n v s = { s with opa := mergeWrite s.opa k n v } := by
  have hreg : windowReg (0x18 + k) = .opa :=
    windowReg_eq_of_slot (off' := 0x18) (by omega) (by omega)
  simp only [writeEffect, hreg, mergeWrite_add_base]

theorem writeEffect_opb :
    writeEffect (0x20 + k) n v s = { s with opb := mergeWrite s.opb k n v } := by
  have hreg : windowReg (0x20 + k) = .opb :=
    windowReg_eq_of_slot (off' := 0x20) (by omega) (by omega)
  simp only [writeEffect, hreg, mergeWrite_add_base]

theorem writeEffect_opc :
    writeEffect (0x28 + k) n v s = { s with opc := mergeWrite s.opc k n v } := by
  have hreg : windowReg (0x28 + k) = .opc :=
    windowReg_eq_of_slot (off' := 0x28) (by omega) (by omega)
  simp only [writeEffect, hreg, mergeWrite_add_base]

end

/-- Settles O17: the three registers take a write through one merge, at the write's place in the register. -/
theorem operandWritesMergeBytes : Obligations.OperandWritesMergeBytes := by
  intro s v n k hnk
  have hk : k < 8 := by omega
  have haccess : ∀ {base : Nat}, base % 8 = 0 → base + 8 ≤ 256 →
      access ⟨.write, base + k, n, v⟩ s =
        { writeEffect (base + k) n v s with response := some .writeOk } :=
    fun h8 hend => access_write_of_legal rfl (legal_write_in_register hnk h8 hend v) s
  refine ⟨fun w => mergeWrite w k n v, ?_, ?_, ?_, ?_⟩
  · intro w j hj
    rw [getLsbD_mergeWrite w k n v hj, byteShift_eq, Nat.mod_eq_of_lt hk]
  · rw [haccess rfl (by decide), writeEffect_opa hk]
  · rw [haccess rfl (by decide), writeEffect_opb hk]
  · rw [haccess rfl (by decide), writeEffect_opc hk]

/-! ### Bus addresses (R52) -/

/-- Settles O22: the window of a base is the one condition of the decode, and UNIT_BASE counts whole windows. -/
theorem busAddressDecode : Obligations.BusAddressDecode := by
  refine ⟨Nat.mul_mod_right 256 _, fun base addr n v => ⟨fun hin => ?_, fun hout => ?_⟩⟩
  · simp only [memRead, memWrite, windowOffset, if_pos hin, Option.map_some, and_self]
  · have hnot : ¬ (base ≤ addr ∧ addr ≤ base + 0xFF) := by omega
    simp only [memRead, memWrite, windowOffset, if_neg hnot, Option.map_none, and_self]

end Sys2Proof.Machine
end

/-! ## Proofs: command words and host programs (30_encoding.md R80 to R91) -/

section
namespace Sys2Proof

/-! ### The decoder on words (R82, R86, R87) -/

theorem decode_eq_command_iff {w : Word} {i : Instr} : decode w = .command i ↔ w = encode i :=
  ⟨eq_encode_of_decode, fun h => h ▸ decode_encode i⟩

theorem toOption_decode_encode (i : Instr) : (decode (encode i)).toOption = some i := by
  rw [decode_encode]
  rfl

theorem toOption_decode_eq_none {w : Word} (h : ∀ i, w ≠ encode i) : (decode w).toOption = none := by
  cases hd : decode w with
  | command i => exact absurd (decode_eq_command_iff.mp hd) (h i)
  | illegal e => rfl

/-- Settles O2: the six tested words are the six `encode i`, and no other word decodes. -/
theorem decodeOnEveryWord : Obligations.DecodeOnEveryWord := by
  intro w
  split_ifs with h1 h2 h3 h4 h5 h6
  · exact h1 ▸ toOption_decode_encode .isqrt
  · exact h2 ▸ toOption_decode_encode .sqrtq32
  · exact h3 ▸ toOption_decode_encode .psqrt
  · exact h4 ▸ toOption_decode_encode .frnd
  · exact h5 ▸ toOption_decode_encode .minv
  · exact h6 ▸ toOption_decode_encode .minvc
  · refine toOption_decode_eq_none fun i => ?_
    cases i
    exacts [h1, h2, h3, h4, h5, h6]

/-! ### Words and their little-endian bytes (20_memory.md R60) -/

@[simp] theorem length_bytesOfWord (n : Nat) (w : Word) : (bytesOfWord n w).length = n := by
  induction n generalizing w with
  | zero => rfl
  | succ n ih => simp [bytesOfWord, ih]

/-- A word that fits in `n` bytes is read back from them. -/
theorem wordOfBytes_bytesOfWord {n : Nat} {w : Word} (h : w.toNat < 2 ^ (8 * n)) :
    wordOfBytes (bytesOfWord n w) = w := by
  induction n generalizing w with
  | zero => exact BitVec.eq_of_toNat_eq (Nat.lt_one_iff.mp h).symm
  | succ n ih =>
    have hrest : (w >>> 8).toNat < 2 ^ (8 * n) := by
      rw [BitVec.toNat_ushiftRight, Nat.shiftRight_eq_div_pow]
      exact Nat.div_lt_of_lt_mul (by rwa [← pow_add, Nat.add_comm])
    rw [bytesOfWord, wordOfBytes, ih hrest]
    apply BitVec.eq_of_getLsbD_eq
    intro k hk
    by_cases h8 : k < 8
    · simp [hk, h8]
    · have hk8 : 8 + (k - 8) = k := by omega
      simp [hk, h8, hk8]

theorem getElem_bytesOfWord {n : Nat} {w : Word} {j : Nat} (h : j < (bytesOfWord n w).length) :
    (bytesOfWord n w)[j] = (w >>> (8 * j)).setWidth 8 := by
  induction n generalizing w j with
  | zero => exact absurd h (Nat.not_lt_zero j)
  | succ n ih =>
    cases j with
    | zero => simp [bytesOfWord]
    | succ j =>
      simp only [bytesOfWord, List.getElem_cons_succ, ih, ← BitVec.shiftRight_add]
      rw [Nat.mul_succ, Nat.add_comm]

/-- At most eight bytes are read back from their word. -/
theorem bytesOfWord_wordOfBytes {bs : List Byte} (h : bs.length ≤ 8) :
    bytesOfWord bs.length (wordOfBytes bs) = bs := by
  refine List.ext_getElem (length_bytesOfWord _ _) fun j _ hj => ?_
  rw [getElem_bytesOfWord, Machine.byte_wordOfBytes bs (by omega), List.getD_eq_getElem _ _ hj]

/-- Bytes and word determine each other once the number of bytes is known. -/
theorem wordOfBytes_eq_iff {bs : List Byte} {w : Word} (hlen : bs.length ≤ 8)
    (hw : w.toNat < 2 ^ (8 * bs.length)) :
    wordOfBytes bs = w ↔ bs = bytesOfWord bs.length w :=
  ⟨fun h => h ▸ (bytesOfWord_wordOfBytes hlen).symm,
    fun h => (congrArg wordOfBytes h).trans (wordOfBytes_bytesOfWord hw)⟩

/-! ### Decoding the bytes of a command write (R83) -/

/-- A command write has 8 or 4 bytes, and its word is the command's. -/
theorem decodeBytes_eq_command_iff {bs : List Byte} {i : Instr} :
    decodeBytes bs = .command i ↔
      (bs.length = 8 ∨ bs.length = 4) ∧ wordOfBytes bs = encode i := by
  unfold decodeBytes
  split
  case isTrue hlen => rw [decode_eq_command_iff, and_iff_right hlen]
  case isFalse hlen => simp [hlen]

/-- A command word fits in any byte count a command write has. -/
theorem encode_lt_two_pow (i : Instr) {n : Nat} (hn : 1 ≤ n) : (encode i).toNat < 2 ^ (8 * n) :=
  calc (encode i).toNat ≤ 6 := Machine.encode_le_six i
    _ < 2 ^ 8 := by decide
    _ ≤ 2 ^ (8 * n) := Nat.pow_le_pow_right (by decide) (by omega)

/-- Settles O3: at either length of a command write, the bytes of the command's word are the only ones with that word. -/
theorem decodeEncodeAgree : Obligations.DecodeEncodeAgree := by
  intro bs i
  rw [decodeBytes_eq_command_iff]
  constructor
  · rintro ⟨hlen, hword⟩
    have hbs := (wordOfBytes_eq_iff (by omega) (encode_lt_two_pow i (by omega))).mp hword
    obtain h8 | h4 := hlen
    · exact .inl (by rwa [h8] at hbs)
    · exact .inr (by rwa [h4] at hbs)
  · rintro (rfl | rfl)
    · exact ⟨.inl (length_bytesOfWord 8 _), wordOfBytes_bytesOfWord (encode_lt_two_pow i (by decide))⟩
    · exact ⟨.inr (length_bytesOfWord 4 _), wordOfBytes_bytesOfWord (encode_lt_two_pow i (by decide))⟩

/-- A row of the opcode table at full width is a word, decoded. -/
theorem decodeTableWord_eq_decode (w : Nat) :
    decodeTableWord 64 w = (decode (BitVec.ofNat 64 w)).toOption := by
  have hmod : BitVec.ofNat 64 (w % 2 ^ 64) = BitVec.ofNat 64 w :=
    BitVec.eq_of_toNat_eq (by simp)
  rw [decodeTableWord, if_pos le_rfl, decodeBytes, if_pos (.inl (length_bytesOfWord 8 _)),
    wordOfBytes_bytesOfWord (BitVec.isLt _), hmod]

/-- Settles O1: the written-out bytes are those of `encode`, and a table row decodes as its word. -/
theorem opcodeWordsDecode : Obligations.OpcodeWordsDecode := by
  have hbytes : ∀ i, decodeBytes (encodeBytes i) = .command i := fun i =>
    (decodeEncodeAgree _ i).mpr (.inl rfl)
  refine ⟨hbytes .isqrt, hbytes .sqrtq32, hbytes .psqrt, hbytes .frnd, hbytes .minv, hbytes .minvc,
    ?_, ?_, ?_⟩
  · exact (decodeTableWord_eq_decode 0x6).trans (decodeOnEveryWord 6)
  · exact (decodeTableWord_eq_decode 0x0).trans (decodeOnEveryWord 0)
  · exact (decodeTableWord_eq_decode 0x7).trans (decodeOnEveryWord 7)

end Sys2Proof

namespace Sys2Proof.Machine

/-! ### Delivering a command word (40_command.md R100 to R102) -/

theorem commandWrite_of_busy (w : Word) {s : State} (hb : s.busy = true) :
    commandWrite w s = { s with cbusy := true } := by
  simp only [commandWrite, hb, if_true]

theorem commandWrite_of_illegal {w : Word} {s : State} (hb : s.busy = false)
    (hw : (decode w).toOption = none) : commandWrite w s = { s with illop := true } := by
  obtain ⟨hb', -⟩ | ⟨-, -, h⟩ | ⟨-, ⟨i, rfl⟩, -⟩ := commandWrite_cases w s
  · simp [hb] at hb'
  · exact h
  · cases (toOption_decode_encode i).symm.trans hw

theorem one_le_encode (i : Instr) : 1 ≤ (encode i).toNat := by
  cases i <;> decide

/-- Settles O4: the word of a command lies from 1 to 6, so RSV is zero and OP is assigned. -/
theorem illegalWordsAreDropped : Obligations.IllegalWordsAreDropped := by
  intro w s hw
  have hnone : (decode w).toOption = none := by
    refine toOption_decode_eq_none ?_
    rintro i rfl
    have hlo := one_le_encode i
    have hhi := encode_le_six i
    omega
  exact ⟨hnone, fun hb => commandWrite_of_illegal hb hnone, fun hb => commandWrite_of_busy w hb⟩

/-- A write of 4 or 8 bytes at CMD's offset delivers them, zero-extended (30_encoding.md R83). -/
theorem access_write_cmd {n : Nat} (hn : n = 4 ∨ n = 8) (v : Word) (s : State) :
    access ⟨.write, 0x10, n, v⟩ s =
      { commandWrite (lowBits v (8 * n)) s with response := some .writeOk } :=
  access_of_deliveredWord
    (deliveredWord_eq_some_iff.mpr ⟨⟨legal_write_of_aligned hn rfl (by decide) v, rfl, rfl⟩, rfl⟩) s

/-- A write at CMD's upper half does not reach bit 0, so it delivers nothing (30_encoding.md R83). -/
theorem writeEffect_cmd_high (n : Nat) (v : Word) (s : State) : writeEffect 0x14 n v s = s := rfl

/-- Settles O7: the delivered word is the low 64 or 32 bits of the value. -/
theorem writesDeliverCommandWords : Obligations.WritesDeliverCommandWords := by
  intro v s
  refine ⟨?_, ?_, ?_⟩
  · rw [access_write_cmd (.inr rfl), lowBits_of_le (by decide)]
  · exact access_write_cmd (.inl rfl) v s
  · rw [access_write_of_legal rfl (legal_write_upper_half rfl (by decide) v), writeEffect_cmd_high]

/-! ### One statement of a host program (30_encoding.md R89, R91) -/

section
variable {h : HostProcess} {stmt : HostStmt} (hc : h.code[h.pc]? = some stmt)
include hc

/-- A statement with an access runs it and takes its data. -/
theorem hostStep_of_access {a : Access} {s s' : State} (ha : h.transaction stmt = some a)
    (hs : access a s = s') : hostStep h s = (h.advance s'.busData stmt, s') := by
  simp only [hostStep, hc, ha, hs]

/-- A statement without an access leaves the unit alone. -/
theorem hostStep_of_no_access (ha : h.transaction stmt = none) (s : State) :
    hostStep h s = (h.advance 0 stmt, s) := by
  simp only [hostStep, hc, ha]

end

/-- An 8-byte read at STATUS answers its flags (20_memory.md R57). -/
theorem access_read_status (v : Word) (s : State) :
    access ⟨.read, 0x08, 8, v⟩ s = { s with response := some (.readOk (statusWord s)) } := by
  rw [access_read_of_legal (legal_read_of_aligned rfl (by decide) v), readValue_of_aligned rfl]
  rfl

/-- Bit 0 of STATUS is BUSY (10_state.md R22, R23). -/
theorem statusWord_and_one_ne_zero_iff (s : State) : statusWord s &&& 0x1 ≠ 0 ↔ s.busy = true := by
  have all : ∀ b d i l c : Bool,
      (bitAt b 0 ||| bitAt d 1 ||| bitAt i 2 ||| bitAt l 3 ||| bitAt c 4) &&& 0x1 ≠ 0 ↔ b = true := by
    decide
  exact all s.busy s.done s.inval s.illop s.cbusy

/-- The variable loaded last is read back. -/
theorem HostProcess.get_loaded (code : List HostStmt) (pc t : Nat) (d : Word)
    (vars : List (Nat × Word)) : HostProcess.get ⟨code, pc, (t, d) :: vars⟩ t = d := by
  simp [HostProcess.get]

/-- Settles O56: the load puts STATUS in the polling variable, and the branch tests its BUSY bit. -/
theorem waitPollsBusy : Obligations.WaitPollsBusy := by
  intro code here t vars s hload hbranch
  have hfirst : hostStep ⟨code, here, vars⟩ s =
      (⟨code, here + 1, (t, statusWord s) :: vars⟩,
        { s with response := some (.readOk (statusWord s)) }) :=
    hostStep_of_access (h := ⟨code, here, vars⟩) (stmt := .ld 8 WindowReg.status.offset t) hload rfl
      (access_read_status 0 s)
  rw [hfirst, hostStep_of_no_access hbranch rfl]
  simp only [HostProcess.advance, HostProcess.get_loaded, statusWord_and_one_ne_zero_iff]

/-- Settles O57: the stored word has ones at bits 1, 3 and 4. -/
theorem ackClearsFlags : Obligations.AckClearsFlags := by
  intro h s hc
  have hack : access ⟨.write, 0x08, 8, 0x1A⟩ s =
      { s with done := false, illop := false, cbusy := false, response := some .writeOk } := by
    simpa using (statusWriteOneToClear s 0x1A).1 8 (.inr rfl)
  exact hostStep_of_access hc rfl hack

end Sys2Proof.Machine
end

/-! ## Proofs: the command protocol and its progress (40_command.md R100 to R108) -/

section
namespace Sys2Proof.Machine

/-! ### Delivering and placing the word of a command (R101, R103) -/

/-- A command's word delivered while BUSY is 0 is accepted (R103). -/
theorem commandWrite_encode (i : Instr) {s : State} (hb : s.busy = false) :
    commandWrite (encode i) s = accept (encode i) s := by
  simp [commandWrite, hb]

/-- What acceptance latches as the opcode, with OP taken from the word as a number. -/
theorem opField_eq_ofNat (w : Word) : opField w = BitVec.ofNat 4 w.toNat :=
  (BitVec.ofNat_toNat 4 w).symm

/-- Settles O5: a busy unit drops every word. -/
theorem busyWordIsDropped : Obligations.BusyWordIsDropped :=
  fun w _ hb => commandWrite_of_busy w hb

/-- Settles O6: an idle unit accepts the word, and `accept` writes R103's fields alone. -/
theorem legalWordIsAccepted : Obligations.LegalWordIsAccepted := by
  intro i s hb
  rw [commandWrite_encode i hb, ← opField_eq_ofNat]
  rfl

theorem withFetchWord_encode (s : State) (i : Instr) :
    s.withFetchWord 64 (encode i).toNat =
      { accept (encode i) s with turns := .unit :: s.turns } := by
  have hword : BitVec.ofNat 64 ((encode i).toNat % 2 ^ 64) = encode i := by
    rw [Nat.mod_eq_of_lt (BitVec.isLt _), BitVec.ofNat_toNat, BitVec.setWidth_eq]
  rw [State.withFetchWord, hword, placeWord, decode_encode]

/-- Settles O9: the placed word stands accepted with the unit's turn next, which runs the command in flight. -/
theorem placedWordRuns : Obligations.PlacedWordRuns := by
  intro s i
  rw [withFetchWord_encode]
  exact (stepRunsCommandInFlight _ i s.turns rfl (opField_eq_ofNat _)).2 rfl

/-- Settles O10: the write's step is the acceptance of R103, and it leaves the command in flight with the unit's turn next. -/
theorem issueThenComplete : Obligations.IssueThenComplete := by
  intro s i rest hb ht
  have haccept := legalWordIsAccepted i { s with turns := .unit :: rest } hb
  have hissue := step_of_turns_cons ht
  rw [turnStep, access_write_cmd (.inr rfl), lowBits_of_le (by decide), haccept] at hissue
  exact ⟨_, hissue, rfl, rfl, (stepRunsCommandInFlight _ i rest rfl rfl).2 rfl⟩

/-! ### A command's results (R104, R105, R107, R108) -/

/-- FRND, and no other command, has bytes for DIGBUF (R104). -/
theorem execResult_dig_isSome_iff (i : Instr) (a b c : Word) :
    (execResult i a b c).dig.isSome = true ↔ i = .frnd := by
  by_cases hi : i = .frnd
  · subst hi
    obtain ⟨dig, hdig, -⟩ := frndResult_wf a b.toNat c.toNat
    simp [execResult, hdig]
  · simp [execResult_dig_of_ne_frnd hi, hi]

/-- Settles O11: the results are `execResult` of the latches, and `complete` writes R105's fields alone. -/
theorem resultsComeFromLatches : Obligations.ResultsComeFromLatches := by
  intro i a b c
  refine ⟨execResult i a b c, execResult_dig_isSome_iff i a b c, ?_⟩
  rintro s rfl rfl rfl
  exact exec_eq_complete i s

/-- Settles O12: an access keeps the latches, of which the results are a function, and the DIGBUF that a command without digits
leaves. -/
theorem accessKeepsCommandInFlight : Obligations.AccessKeepsCommandInFlight := by
  intro s a i hb
  have hkeep := access_keepsInFlight a hb
  have hresult := hkeep.execResult_eq i
  obtain ⟨-, -, -, hdig, -⟩ := access_keeps a s
  refine ⟨hkeep.busy, congrArg decodeOp hkeep.latOp, _, _, exec_eq_complete i s,
    exec_eq_complete i (access a s), ?_⟩
  simp [hresult, hdig]

/-! ### Runs of the machine over a schedule (R106) -/

theorem run_succ_of_step {s t : State} (h : step s = .next t) (k : Nat) :
    Sys2Proof.core.run (k + 1) s = Sys2Proof.core.run k t := by
  have hcore : Sys2Proof.core.step s = .next t := h
  simp only [Host.Core.run, hcore]

/-- A step takes the first turn off the schedule and no other. -/
theorem turns_of_step {s t : State} (h : step s = .next t) : t.turns = s.turns.tail := by
  obtain ⟨rest, hrest, ht⟩ := step_cases h
  have htail : s.turns.tail = rest := by
    obtain ⟨hs, rfl⟩ | ⟨x, hs⟩ := hrest <;> simp [hs]
  rw [htail]
  obtain ⟨a, -, rfl⟩ | ⟨-, rfl⟩ | ⟨-, -, rfl⟩ | ⟨i, -, -, -, rfl⟩ := ht
  · obtain ⟨-, -, -, -, hturns⟩ := access_keeps a { s with turns := rest }
    exact hturns
  all_goals rfl

/-- The unit's own step leaves it idle: it completes a command in flight. -/
theorem idle_of_unitStep {s t : State} (h : unitStep s = .next t) : t.busy = false := by
  obtain ⟨hb, hu⟩ | ⟨i, -, -, hu⟩ | ⟨-, -, hu⟩ := unitStep_cases s
  · obtain rfl : s = t := by simpa [hu] using h
    exact hb
  · obtain rfl : complete (execResult i s.latA s.latB s.latC) s = t := by simpa [hu] using h
    rfl
  · simp [hu] at h

/-- Settles O52, by induction on the schedule: each turn keeps the invariant, so the machine answers, and the step after the last one
is the unit's own. -/
theorem idleAfterSchedule : Obligations.IdleAfterSchedule := by
  intro s hs
  induction hturns : s.turns generalizing s with
  | nil =>
    obtain ⟨t, ht⟩ := step_answers_of_inv hs
    refine ⟨t, run_succ_of_step ht 0, ?_, by rw [turns_of_step ht, hturns]; rfl⟩
    exact idle_of_unitStep (step_of_turns_nil hturns ▸ ht)
  | cons x rest ih =>
    obtain ⟨t, ht⟩ := step_answers_of_inv hs
    have hrest : t.turns = rest := by rw [turns_of_step ht, hturns, List.tail_cons]
    obtain ⟨u, hrun, hidle⟩ := ih t (stepKeepsInv s t hs ht) hrest
    exact ⟨u, (run_succ_of_step ht _).trans hrun, hidle⟩

/-! ### A cycle of the clocked unit as a run (R106, 60_exceptions.md R205) -/

/-- The schedule is no part of the unit's own step: it commutes with setting it. -/
theorem unitStep_with_turns {s u : State} (h : unitStep s = .next u) (ts : List Turn) :
    unitStep { s with turns := ts } = .next { u with turns := ts } := by
  obtain ⟨hb, hu⟩ | ⟨i, hb, hf, hu⟩ | ⟨-, -, hu⟩ := unitStep_cases s
  · obtain rfl : s = u := by simpa [hu] using h
    simp [unitStep, hb]
  · obtain rfl : complete (execResult i s.latA s.latB s.latC) s = u := by simpa [hu] using h
    exact (unitStep_of_inFlight (s := { s with turns := ts }) hb hf).trans (exec_eq_complete i _)
  · simp [hu] at h

/-- The unit's turn, scheduled first, is its own step. -/
theorem step_of_unit_turn {s u : State} (h : unitStep s = .next u) (ts : List Turn) :
    step { s with turns := .unit :: ts } = .next { u with turns := ts } :=
  (step_of_turns_cons (s := { s with turns := .unit :: ts }) rfl).trans (unitStep_with_turns h ts)

theorem turns_of_unitStep {s u : State} (h : unitStep s = .next u) : u.turns = s.turns := by
  have hu := unitStep_with_turns h s.turns
  simpa using congrArg State.turns (Host.Outcome.next.inj (h.symm.trans hu))

/-- Everything a cycle that answers can be: it runs the unit's step if a completion is due, then the access. -/
theorem clockCycle_cases {lat : Latency} {a : Option Access} {c c' : Clocked}
    (h : clockCycle lat a c = .next c') :
    (c.due = false ∧ c'.unit = cycleAccess a c.unit) ∨
    (c.due = true ∧ ∃ u, unitStep c.unit = .next u ∧ c'.unit = cycleAccess a u) := by
  cases hd : c.due
  · obtain rfl : cycleEnd lat a c.left c.unit = c' := by simpa [clockCycle_of_not_due lat a hd] using h
    exact .inl ⟨rfl, rfl⟩
  · refine .inr ⟨rfl, ?_⟩
    cases hu : unitStep c.unit with
    | next u =>
      obtain rfl : cycleEnd lat a c.left u = c' := by simpa [clockCycle_of_due lat a hd hu] using h
      exact ⟨u, rfl, rfl⟩
    | fault r => simp [clockCycle, hd, hu] at h
    | refused r => simp [clockCycle, hd, hu] at h

/-- The access of a cycle, scheduled first, is a run of the machine. -/
theorem run_cycleAccess (a : Option Access) (s : State) :
    Sys2Proof.core.run (a.toList.map Turn.host).length
      { s with turns := a.toList.map .host ++ s.turns } = .next (cycleAccess a s) := by
  cases a with
  | none => rfl
  | some a => exact run_succ_of_step (hostTurnIsAccess _ a s.turns rfl) 0

/-- Settles O54: a completion that is due is the first turn, and the cycle's access the one after it. -/
theorem clockedUnitIsAdmitted : Obligations.ClockedUnitIsAdmitted := by
  intro lat a c c' h
  obtain ⟨hd, hc'⟩ | ⟨hd, u, hu, hc'⟩ := clockCycle_cases h
  · have hturns : cycleTurns a c = a.toList.map .host := by simp [cycleTurns, hd]
    rw [hturns, hc']
    exact run_cycleAccess a c.unit
  · have hturns : cycleTurns a c = .unit :: a.toList.map .host := by simp [cycleTurns, hd]
    have hrun := run_cycleAccess a u
    rw [turns_of_unitStep hu] at hrun
    rw [hturns, hc']
    exact (run_succ_of_step (step_of_unit_turn hu _) _).trans hrun

end Sys2Proof.Machine
end

/-! ## Proofs: the square roots (41_sqrt.md R120 to R127) -/

section
namespace Sys2Proof.Machine

/-! ### The operand, normalised (R121) -/

theorem sqrtLead_of_ne_zero {x : Word} (hx : x ≠ 0) : sqrtLead x true = clz64 x / 2 := by
  simpa [sqrtLead] using fun h => absurd h hx

/-- A nonzero operand is brought to the top binade pair. -/
theorem sqrtLead_binade {x : Word} (hx : x ≠ 0) :
    sqrtLead x true ≤ 31 ∧ 2 ^ 62 ≤ x.toNat * 2 ^ (2 * sqrtLead x true) ∧
      x.toNat * 2 ^ (2 * sqrtLead x true) < 2 ^ 64 := by
  rw [sqrtLead_of_ne_zero hx]
  obtain ⟨hclz, hlow, hhigh⟩ := clz64_spec hx
  refine ⟨by omega, ?_, ?_⟩
  · calc 2 ^ 62 ≤ 2 ^ (63 - clz64 x + 2 * (clz64 x / 2)) := Nat.pow_le_pow_right (by decide) (by omega)
      _ = 2 ^ (63 - clz64 x) * 2 ^ (2 * (clz64 x / 2)) := pow_add ..
      _ ≤ _ := Nat.mul_le_mul_right _ hlow
  · calc x.toNat * 2 ^ (2 * (clz64 x / 2))
        < 2 ^ (64 - clz64 x) * 2 ^ (2 * (clz64 x / 2)) := Nat.mul_lt_mul_of_pos_right hhigh (by positivity)
      _ = 2 ^ (64 - clz64 x + 2 * (clz64 x / 2)) := (pow_add ..).symm
      _ ≤ 2 ^ 64 := Nat.pow_le_pow_right (by decide) (by omega)

/-- No set bit of the operand is lost when it is normalised (R120). -/
theorem toNat_sqrtStart_xs (x : Word) (normalize : Bool) :
    (sqrtStart x normalize).xs.toNat = x.toNat * 2 ^ (2 * sqrtLead x normalize) := by
  have hlt : x.toNat * 2 ^ (2 * sqrtLead x normalize) < 2 ^ 64 := by
    by_cases h : normalize = true ∧ x ≠ 0
    · obtain ⟨rfl, hx⟩ := h
      exact (sqrtLead_binade hx).2.2
    · have hlead : sqrtLead x normalize = 0 := by
        simpa [sqrtLead] using fun hn hx => absurd ⟨hn, hx⟩ h
      simpa [hlead] using x.isLt
  rw [sqrtStart, BitVec.toNat_shiftLeft, Nat.shiftLeft_eq, Nat.mod_eq_of_lt hlt]

/-! ### The invariant of the restoring method (R120, R122) -/

/-- The number formed by the first `k` digit pairs of the operand `v`, zero pairs following its 32 (R122). -/
def leadingPairs (v : Word) (k : Nat) : Nat := v.toNat * 4 ^ k / 2 ^ 64

theorem leadingPairs_lt (v : Word) (k : Nat) : leadingPairs v k < 4 ^ k :=
  Nat.div_lt_of_lt_mul (Nat.mul_lt_mul_of_pos_right v.isLt (by positivity))

/-- After `k` iterations over the operand `v`: what `xs` still holds of it, and the root and remainder of its first `k` digit
pairs. -/
structure SqrtRegs.Inv (v : Word) (k : Nat) (q : SqrtRegs) : Prop where
  xs_eq : q.xs.toNat = v.toNat * 4 ^ k % 2 ^ 64
  root : q.a.toNat * q.a.toNat + q.r.toNat = leadingPairs v k
  r_le : q.r.toNat ≤ 2 * q.a.toNat

section
variable {v : Word} {k : Nat} {q : SqrtRegs} (h : q.Inv v k)
include h

theorem SqrtRegs.Inv.a_lt : q.a.toNat < 2 ^ k := by
  have hroot := h.root
  have hpairs := leadingPairs_lt v k
  rw [show 4 = 2 * 2 from rfl, mul_pow] at hpairs
  exact lt_of_mul_self_lt_mul_self₀ (Nat.zero_le _) (by omega)

theorem SqrtRegs.Inv.isIsqrt : IsIsqrt (leadingPairs v k) q.a.toNat := by
  have hroot := h.root
  have hr := h.r_le
  have hsq : (q.a.toNat + 1) * (q.a.toNat + 1) = q.a.toNat * q.a.toNat + 2 * q.a.toNat + 1 := by ring
  constructor <;> omega

/-- An iteration takes the next digit pair, since `(2a + 1)^2 - (2a)^2 = 4a + 1` is the trial value (R122). -/
theorem SqrtRegs.Inv.iter (hk : k < 64) : (sqrtIter q).Inv v (k + 1) := by
  have ha : q.a.toNat < 2 ^ 63 :=
    lt_of_lt_of_le h.a_lt (Nat.pow_le_pow_right (by decide) (by omega))
  have hstep := sqrtIter_toNat q ha h.r_le
  obtain ⟨hxs, hroot, hr⟩ := h
  have hpow : v.toNat * 4 ^ (k + 1) = 4 * (v.toNat * 4 ^ k) := by ring
  have hpairs : leadingPairs v (k + 1) = 4 * leadingPairs v k + q.xs.toNat / 2 ^ 62 := by
    rw [leadingPairs, leadingPairs, hpow, hxs]
    omega
  have hpair : q.xs.toNat / 2 ^ 62 < 4 := by have := q.xs.isLt; omega
  have hxs' : (sqrtIter q).xs.toNat = v.toNat * 4 ^ (k + 1) % 2 ^ 64 := by
    rw [sqrtIter_xs, BitVec.toNat_shiftLeft, Nat.shiftLeft_eq, hxs, hpow]
    omega
  simp only at hstep
  split at hstep <;> obtain ⟨ha', hr'⟩ := Prod.mk.inj hstep
  · have hsq : (2 * q.a.toNat + 1) * (2 * q.a.toNat + 1) =
        4 * (q.a.toNat * q.a.toNat) + (4 * q.a.toNat + 1) := by ring
    exact ⟨hxs', by rw [ha', hr', hsq]; omega, by omega⟩
  · have hsq : 2 * q.a.toNat * (2 * q.a.toNat) = 4 * (q.a.toNat * q.a.toNat) := by ring
    exact ⟨hxs', by rw [ha', hr', hsq]; omega, by omega⟩

end

theorem sqrtLoop_inv (x : Word) (normalize : Bool) {k : Nat} (hk : k ≤ 64) :
    (sqrtLoop k (sqrtStart x normalize)).Inv (sqrtStart x normalize).xs k := by
  induction k with
  | zero =>
    have hlt := (sqrtStart x normalize).xs.isLt
    refine ⟨?_, ?_, Nat.zero_le _⟩
    · rw [sqrtLoop]
      omega
    · simp [leadingPairs, sqrtLoop, sqrtStart]
  | succ k ih =>
    rw [sqrtLoop_succ]
    exact (ih (by omega)).iter (by omega)

/-- The first `k` digit pairs of the `n` pairs the loop consumes (R122). -/
theorem leadingPairs_eq (v : Word) {n k : Nat} (hn : 32 ≤ n) (hk : k ≤ n) :
    leadingPairs v k = v.toNat * 2 ^ (2 * n - 64) / 4 ^ (n - k) := by
  have h64 : 2 ^ 64 * 2 ^ (2 * n - 64) = 4 ^ (n - k) * 4 ^ k := by
    rw [← pow_add, ← pow_add, show 4 = 2 ^ 2 from rfl, ← pow_mul]
    congr 1
    omega
  calc leadingPairs v k
      = v.toNat * 4 ^ k * 2 ^ (2 * n - 64) / (2 ^ 64 * 2 ^ (2 * n - 64)) :=
        (Nat.mul_div_mul_right _ _ (by positivity)).symm
    _ = v.toNat * 2 ^ (2 * n - 64) * 4 ^ k / (4 ^ (n - k) * 4 ^ k) := by rw [h64, mul_right_comm]
    _ = _ := Nat.mul_div_mul_right _ _ (by positivity)

/-- Settles O28: the invariant of the restoring method holds after every iteration. -/
theorem sqrtCoreClosedForm : Obligations.SqrtCoreClosedForm := by
  intro x normalize n k hn hk
  have hinv := sqrtLoop_inv x normalize (k := k) (by omega)
  have hpairs := leadingPairs_eq (sqrtStart x normalize).xs (k := k) (n := n) (by omega) hk
  rw [toNat_sqrtStart_xs] at hpairs
  have hroot := hinv.root
  simp only [← hpairs]
  exact ⟨hinv.isIsqrt, by omega, hinv.a_lt⟩

/-- Settles O29: the bounds of the invariant leave room for the next iteration. -/
theorem sqrtWidthsSuffice : Obligations.SqrtWidthsSuffice := by
  intro x normalize k hk
  have hinv := sqrtLoop_inv x normalize hk.le
  have hr := hinv.r_le
  have ha : (sqrtLoop k (sqrtStart x normalize)).a.toNat < 2 ^ 63 :=
    lt_of_lt_of_le hinv.a_lt (Nat.pow_le_pow_right (by decide) (by omega))
  exact ⟨hinv.a_lt, hr, by omega, by omega, by omega⟩

/-! ### The root in the accumulator, and roots of numbers (R122, R127) -/

/-- The accumulator of a whole run is the root of the `n` digit pairs it consumes, below `2^n` (R122). -/
theorem sqrtCore_isIsqrt (x : Word) (normalize : Bool) {n : Nat} (hn : n = 32 ∨ n = 64) :
    IsIsqrt (x.toNat * 2 ^ (2 * sqrtLead x normalize) * 2 ^ (2 * n - 64))
        (sqrtCore x normalize n).a.toNat ∧
      (sqrtCore x normalize n).a.toNat < 2 ^ n := by
  obtain ⟨hroot, -, hlt⟩ := sqrtCoreClosedForm x normalize n n hn le_rfl
  rw [Nat.sub_self, pow_zero, Nat.div_one] at hroot
  exact ⟨hroot, hlt⟩

theorem isIsqrt_iff {n r : Nat} : IsIsqrt n r ↔ r = Nat.sqrt n := Nat.eq_sqrt.symm

/-- The root of a number scaled by a square, truncated, is the number's root (R127). -/
theorem isIsqrt_of_scaled {n d r : Nat} (hd : 0 < d) (h : IsIsqrt (n * (d * d)) r) :
    IsIsqrt n (r / d) := by
  obtain ⟨hle, hlt⟩ := h
  constructor
  · refine Nat.le_of_mul_le_mul_right (le_trans ?_ hle) (Nat.mul_pos hd hd)
    rw [mul_mul_mul_comm]
    exact Nat.mul_self_le_mul_self (Nat.div_mul_le_self r d)
  · refine lt_of_mul_lt_mul_right (lt_of_lt_of_le hlt ?_) (Nat.zero_le (d * d))
    rw [mul_mul_mul_comm]
    exact Nat.mul_self_le_mul_self (Nat.lt_mul_of_div_lt (Nat.lt_succ_self _) hd)

theorem IsIsqrt.unique {n r r' : Nat} (h : IsIsqrt n r) (h' : IsIsqrt n r') : r = r' :=
  (isIsqrt_iff.mp h).trans (isIsqrt_iff.mp h').symm

/-! ### The three commands (R123 to R127) -/

theorem exec_isqrt (s : State) : exec .isqrt s = .next
    { s with
      res0 := (sqrtCore s.latA false 32).a, res1 := 0, inval := false, busy := false, done := true } := by
  rw [exec_eq_complete]
  simp only [execResult, isqrtResult, complete, Config.isqrtIterations, Option.getD_none]

theorem exec_sqrtq32 (s : State) : exec .sqrtq32 s = .next
    { s with
      res0 := (sqrtCore s.latA false 64).a, res1 := 32, inval := false, busy := false, done := true } := by
  rw [exec_eq_complete]
  simp only [execResult, sqrtq32Result, complete, Config.q32Iterations, Config.q32FractionBits,
    Option.getD_none, BitVec.ofNat_eq_ofNat]

theorem exec_psqrt (s : State) : exec .psqrt s = .next
    { s with
      res0 := (sqrtCore s.latA true 64).a, res1 := BitVec.ofNat 64 (32 + sqrtLead s.latA true)
      inval := false, busy := false, done := true } := by
  rw [exec_eq_complete]
  simp only [execResult, psqrtResult, complete, Config.q32Iterations, Config.q32FractionBits,
    Option.getD_none]

/-- Settles O24: without normalisation 32 digit pairs are the operand itself. -/
theorem isqrtCompletes : Obligations.IsqrtCompletes := by
  intro s
  obtain ⟨hroot, hlt⟩ := sqrtCore_isIsqrt s.latA false (n := 32) (.inl rfl)
  refine ⟨_, by simpa [sqrtLead] using hroot, Nat.le_of_lt_succ hlt, ?_⟩
  rw [exec_isqrt, BitVec.ofNat_toNat, BitVec.setWidth_eq]

/-- Settles O25: without normalisation 64 digit pairs are the operand times `2^64`. -/
theorem sqrtq32Completes : Obligations.Sqrtq32Completes := by
  intro s
  obtain ⟨hroot, hlt⟩ := sqrtCore_isIsqrt s.latA false (n := 64) (.inr rfl)
  refine ⟨_, by simpa [sqrtLead] using hroot, hlt, ?_⟩
  rw [exec_sqrtq32, BitVec.ofNat_toNat, BitVec.setWidth_eq]

/-- Settles O26: the operand is scaled by `4^lead` when normalised and by `2^64` over 64 digit pairs. -/
theorem psqrtCompletes : Obligations.PsqrtCompletes := by
  intro s
  obtain ⟨hroot, hlt⟩ := sqrtCore_isIsqrt s.latA true (n := 64) (.inr rfl)
  refine ⟨sqrtLead s.latA true, (sqrtCore s.latA true 64).a.toNat, ?_, ?_, ?_, hlt, ?_⟩
  · intro hx
    rw [isIsqrt_iff] at hroot
    exact ⟨by simp [sqrtLead, hx], by simpa [hx] using hroot⟩
  · intro hx
    obtain ⟨hlead, hlow, hhigh⟩ := sqrtLead_binade hx
    refine ⟨hlead, ?_, ?_, ?_⟩
    · rwa [show 4 = 2 ^ 2 from rfl, ← pow_mul]
    · rwa [show 4 = 2 ^ 2 from rfl, ← pow_mul]
    · rw [isIsqrt_iff.mp hroot, Nat.le_sqrt]
      calc 2 ^ 63 * 2 ^ 63 = 2 ^ 62 * 2 ^ (2 * 64 - 64) := by norm_num
        _ ≤ _ := Nat.mul_le_mul_right _ hlow
  · rwa [show 2 * (32 + sqrtLead s.latA true) = 2 * sqrtLead s.latA true + (2 * 64 - 64) by omega,
      pow_add, ← mul_assoc]
  · rw [exec_psqrt, BitVec.ofNat_toNat, BitVec.setWidth_eq]

/-- Settles O27, the zero operand of PSQRT. -/
theorem psqrtOfZero : Obligations.PsqrtOfZero := by
  intro s hx
  obtain ⟨lead, r, hzero, -, -, -, hexec⟩ := psqrtCompletes s
  obtain ⟨rfl, rfl⟩ := hzero hx
  exact hexec

/-- A shift right of a word divides the number in it. -/
theorem ofNat_ushiftRight {r : Nat} (hr : r < 2 ^ 64) (k : Nat) :
    BitVec.ofNat 64 r >>> k = BitVec.ofNat 64 (r / 2 ^ k) := by
  apply BitVec.eq_of_toNat_eq
  rw [BitVec.toNat_ushiftRight, BitVec.toNat_ofNat, BitVec.toNat_ofNat, Nat.mod_eq_of_lt hr,
    Nat.mod_eq_of_lt (lt_of_le_of_lt (Nat.div_le_self _ _) hr), Nat.shiftRight_eq_div_pow]

/-- Settles O30: each finer root is that of the operand scaled by a square, and a root has one value. -/
theorem rootsTruncateEachOther : Obligations.RootsTruncateEachOther := by
  intro s
  obtain ⟨ri, hi, -, hexeci⟩ := isqrtCompletes s
  obtain ⟨rq, hq, hltq, hexecq⟩ := sqrtq32Completes s
  obtain ⟨lead, rp, hzero, hne, hp, hltp, hexecp⟩ := psqrtCompletes s
  have hlead : lead ≤ 31 := by
    by_cases hx : s.latA = 0
    · exact (hzero hx).1.trans_le (Nat.zero_le 31)
    · exact (hne hx).1
  have hfb : (BitVec.ofNat 64 (32 + lead)).toNat - 32 = lead := by
    rw [BitVec.toNat_ofNat]
    omega
  have hscale : s.latA.toNat * 2 ^ (2 * (32 + lead)) = s.latA.toNat * 2 ^ 64 * (2 ^ lead * 2 ^ lead) := by
    ring
  have hpq : rq = rp / 2 ^ lead := hq.unique (isIsqrt_of_scaled (by positivity) (hscale ▸ hp))
  have hqi : ri = rq / 2 ^ 32 := hi.unique (isIsqrt_of_scaled (by positivity) hq)
  refine ⟨_, _, _, hexeci, hexecq, hexecp, ?_, ?_⟩
  · simp only [hfb, ofNat_ushiftRight hltp, hpq]
  · simp only [ofNat_ushiftRight hltq, hqi]

end Sys2Proof.Machine
end

/-! ## Proofs: FRND's digits, count and residual (41_sqrt.md R128 to R133) -/

section
namespace Sys2Proof.Machine

/-- Settles O33: the product does not wrap, and a digit of at most 9 fits in four bits. -/
theorem timesTenIsExact : Obligations.TimesTenIsExact := by
  intro frac fb _ hlt
  have hnine := timesTen_digit_le_nine hlt
  refine ⟨toNat_timesTen frac, hnine, BitVec.eq_of_toNat_eq ?_⟩
  rw [BitVec.toNat_ushiftRight] at hnine ⊢
  rw [BitVec.toNat_setWidth, BitVec.extractLsb'_toNat]
  generalize (timesTen frac).toNat >>> fb = digit at hnine
  omega

/-! ### The digits of the expansion (R129, R130) -/

/-- The digit of the fraction left of `y / b` is the next decimal digit of `y / b`. -/
theorem fraction_digit (y : Nat) {b : Nat} (hb : 0 < b) : y % b * 10 / b = y * 10 / b % 10 := by
  have hsplit : y * 10 = y % b * 10 + b * (10 * (y / b)) := by
    calc y * 10 = (y % b + b * (y / b)) * 10 := by rw [Nat.mod_add_div]
      _ = _ := by ring
  have hlt : y % b * 10 / b < 10 :=
    Nat.div_lt_of_lt_mul (Nat.mul_lt_mul_of_pos_right (Nat.mod_lt y hb) (by decide))
  rw [hsplit, Nat.add_mul_div_left _ _ hb, Nat.add_mul_mod_self_left, Nat.mod_eq_of_lt hlt]

/-- The fraction left of `frac0 / 2^fb` after `k` digits, times `2^fb` (R128). -/
def fractionLeft (fb frac0 k : Nat) : Nat := frac0 * 10 ^ k % 2 ^ fb

theorem fractionLeft_succ (fb frac0 k : Nat) :
    fractionLeft fb frac0 (k + 1) = fractionLeft fb frac0 k * 10 % 2 ^ fb := by
  rw [fractionLeft, fractionLeft, Nat.mod_mul_mod, pow_succ, mul_assoc]

/-- FRND writes digit `k`: there is room for it and the NUL, and the fraction left is not 0 (R128). -/
def WritesDigit (fb frac0 capE k : Nat) : Prop := k + 1 < capE ∧ fractionLeft fb frac0 k ≠ 0

/-- FRND's registers after `q.n` passes over `frac0` hold that many digits of `frac0 / 2^fb` and the fraction left. -/
structure FrndRegs.Expands (fb frac0 capE : Nat) (q : FrndRegs) : Prop where
  inv : q.Inv fb
  frac_eq : q.frac.toNat = fractionLeft fb frac0 q.n
  digit : ∀ k, k < q.n → (q.dig.read k).toNat = 0x30 + frac0 * 10 ^ (k + 1) / 2 ^ fb % 10
  written : ∀ k, k < q.n → WritesDigit fb frac0 capE k

section
variable {fb frac0 capE : Nat} {q : FrndRegs} (h : q.Expands fb frac0 capE)
include h

/-- The loop's condition (R128). -/
theorem FrndRegs.Expands.writesDigit_iff :
    q.n + 1 < capE ∧ q.frac ≠ 0 ↔ WritesDigit fb frac0 capE q.n := by
  rw [WritesDigit, ← h.frac_eq, Ne, ← BitVec.toNat_inj]
  rfl

theorem FrndRegs.Expands.iter (hfb : fb ≤ 64) (hcap : capE ≤ 128) (hgo : q.n + 1 < capE ∧ q.frac ≠ 0) :
    (frndIter fb q).Expands fb frac0 capE where
  inv := frndIter_inv hfb h.inv (by omega) hgo.2
  frac_eq := by
    rw [frndIter_frac hfb, h.frac_eq]
    exact (fractionLeft_succ fb frac0 q.n).symm
  digit := by
    intro k hk
    show ((q.dig.write q.n (digitByte (timesTen q.frac) fb)).read k).toNat = _
    rw [Memory.read_write h.inv.wf]
    split
    · subst k
      rw [toNat_digitByte (timesTen_digit_le_nine h.inv.frac_lt), BitVec.toNat_ushiftRight, toNat_timesTen,
        Nat.shiftRight_eq_div_pow, h.frac_eq, fractionLeft, fraction_digit _ (by positivity), pow_succ,
        mul_assoc]
    · exact h.digit k (by have : k < q.n + 1 := hk; omega)
  written := by
    intro k hk
    obtain hlt | rfl : k < q.n ∨ k = q.n := Nat.lt_succ_iff_lt_or_eq.mp hk
    · exact h.written k hlt
    · exact h.writesDigit_iff.mp hgo

end

/-- The loop stops at the first digit it does not write: its fuel never runs out, since a pass needs room below `capE` (R128). -/
theorem frndLoop_expands {fb frac0 capE : Nat} (hfb : fb ≤ 64) (hcap : capE ≤ 128) (fuel : Nat)
    {q : FrndRegs} (h : q.Expands fb frac0 capE) (hfuel : capE ≤ q.n + fuel) :
    (frndLoop fb capE fuel q).Expands fb frac0 capE ∧
      ¬ WritesDigit fb frac0 capE (frndLoop fb capE fuel q).n := by
  induction fuel generalizing q with
  | zero => exact ⟨h, fun hgo => by have := hgo.1; simp only [frndLoop] at this; omega⟩
  | succ fuel ih =>
    unfold frndLoop
    split
    · rename_i hgo
      exact ih (h.iter hfb hcap hgo) (by show capE ≤ q.n + 1 + fuel; omega)
    · rename_i hstop
      exact ⟨h, fun hgo => hstop (h.writesDigit_iff.mpr hgo)⟩

/-- FRND's loop run to its end. The start registers are those of a run with no capacity. -/
theorem frndRun_expands {fb : Nat} (hfb : fb ≤ 64) (value : Word) (cap : Nat) :
    (frndRun value fb cap).Expands fb (value.toNat % 2 ^ fb) (min cap 128) ∧
      ¬ WritesDigit fb (value.toNat % 2 ^ fb) (min cap 128) (frndRun value fb cap).n :=
  frndLoop_expands hfb (effectiveCapacity_le cap) _
    { inv := frndRun_inv hfb value 0
      frac_eq := by simp [fractionLeft]
      digit := fun _ hk => absurd hk (Nat.not_lt_zero _)
      written := fun _ hk => absurd hk (Nat.not_lt_zero _) } (Nat.le_add_left _ _)

/-! ### The command (R128 to R132) -/

theorem frndResult_of_gt {fb : Nat} (hfb : 64 < fb) (value : Word) (cap : Nat) :
    frndResult value fb cap = { res0 := 0, res1 := 0, inval := true, dig := some [] } :=
  if_pos hfb

theorem frndResult_of_le {fb : Nat} (hfb : fb ≤ 64) (value : Word) (cap : Nat) :
    frndResult value fb cap =
      { res0 := BitVec.ofNat 64 (frndRun value fb cap).n, res1 := (frndRun value fb cap).frac
        inval := false, dig := some (frndRun value fb cap).dig } :=
  if_neg (not_lt.mpr hfb)

/-- Settles O31: the loop's registers at its end are the results. -/
theorem frndCompletes : Obligations.FrndCompletes := by
  intro s
  constructor
  · intro hfb
    refine ⟨[], fun _ => rfl, rfl, ?_⟩
    rw [exec_eq_complete, execResult, frndResult_of_gt hfb]
    rfl
  · intro hfb
    obtain ⟨⟨hinv, hfrac, hdigit, hwritten⟩, hstop⟩ := frndRun_expands hfb s.latA s.latC.toNat
    refine ⟨_, _, hwritten, hstop, hdigit, hinv.digits.zero, hinv.wf, ?_⟩
    have hres1 := congrArg (BitVec.ofNat 64) hfrac
    rw [BitVec.ofNat_toNat, BitVec.setWidth_eq, fractionLeft] at hres1
    rw [exec_eq_complete, execResult, frndResult_of_le hfb, ← hres1]
    rfl

/-- The expansion of a fraction `2^z * odd / 2^fb` is exact after `fb - z` digits and no fewer (R132). -/
theorem fractionLeft_eq_zero_iff (fb z m k : Nat) :
    fractionLeft fb (2 ^ z * (2 * m + 1)) k = 0 ↔ fb ≤ z + k := by
  have hodd : Nat.Coprime (2 ^ fb) ((2 * m + 1) * 5 ^ k) := by
    refine Nat.Coprime.pow_left fb (Nat.coprime_two_left.mpr ?_)
    exact (odd_two_mul_add_one m).mul (Odd.pow (by decide))
  have hsplit : 2 ^ z * (2 * m + 1) * 10 ^ k = 2 ^ (z + k) * ((2 * m + 1) * 5 ^ k) := by
    rw [show 10 = 2 * 5 from rfl, mul_pow, pow_add]
    ring
  rw [fractionLeft, ← Nat.dvd_iff_mod_eq_zero, hsplit, hodd.dvd_mul_right]
  exact Nat.pow_dvd_pow_iff_le_right'

/-- After 64 digits nothing is left of the fraction (R132). -/
theorem fractionLeft_of_ge {fb k : Nat} (hfb : fb ≤ 64) (hk : 64 ≤ k) (frac0 : Nat) :
    fractionLeft fb frac0 k = 0 := by
  refine Nat.mod_eq_zero_of_dvd (Dvd.dvd.mul_left ?_ frac0)
  exact (pow_dvd_pow 2 (hfb.trans hk)).trans (pow_dvd_pow_of_dvd (by decide) k)

/-- `n` is the first count at which FRND writes no digit (R128). -/
structure StopsAt (fb frac0 capE n : Nat) : Prop where
  written : ∀ k, k < n → WritesDigit fb frac0 capE k
  stop : ¬ WritesDigit fb frac0 capE n

section
variable {fb frac0 capE n : Nat} (h : StopsAt fb frac0 capE n)
include h

theorem StopsAt.le_of_fractionLeft {k : Nat} (hk : fractionLeft fb frac0 k = 0) : n ≤ k :=
  not_lt.mp fun hlt => (h.written k hlt).2 hk

theorem StopsAt.fractionLeft_eq_zero (hn : n + 1 < capE) : fractionLeft fb frac0 n = 0 :=
  not_not.mp fun hne => h.stop ⟨hn, hne⟩

theorem StopsAt.residual_of_capacity (hfb : fb ≤ 64) (hcap : 65 ≤ capE) :
    fractionLeft fb frac0 n = 0 := by
  by_cases hn : 64 ≤ n
  · exact fractionLeft_of_ge hfb hn frac0
  · exact h.fractionLeft_eq_zero (by omega)

theorem StopsAt.count {z m : Nat} (hodd : frac0 = 2 ^ z * (2 * m + 1)) :
    n = min (capE - 1) (fb - z) := by
  subst hodd
  have hle : n ≤ fb - z :=
    h.le_of_fractionLeft ((fractionLeft_eq_zero_iff fb z m _).mpr (by omega))
  have hcap : n ≤ capE - 1 := by
    by_contra hgt
    have := (h.written (n - 1) (by omega)).1
    omega
  by_cases hroom : n + 1 < capE
  · have := (fractionLeft_eq_zero_iff fb z m n).mp (h.fractionLeft_eq_zero hroom)
    omega
  · omega

end

/-- Settles O32: the count is that of the first digit O31 does not write. -/
theorem frndDigitCount : Obligations.FrndDigitCount := by
  intro s hfb
  obtain ⟨n, dig, hwritten, hstop, -, -, -, hexec⟩ := (frndCompletes s).2 hfb
  have hstops : StopsAt s.latB.toNat (s.latA.toNat % 2 ^ s.latB.toNat) (min s.latC.toNat 128) n :=
    ⟨hwritten, hstop⟩
  have hn : n ≤ 64 := hstops.le_of_fractionLeft (fractionLeft_of_ge hfb le_rfl _)
  have hres0 : (BitVec.ofNat 64 n).toNat = n := by
    rw [BitVec.toNat_ofNat]
    omega
  refine ⟨_, hexec, hres0.trans_le hn, ?_, ?_, ?_⟩
  · intro hcap
    exact congrArg (BitVec.ofNat 64) (hstops.residual_of_capacity hfb (by omega))
  · intro hzero
    have hn0 : n ≤ 0 := hstops.le_of_fractionLeft (by simp [fractionLeft, hzero])
    exact congrArg (BitVec.ofNat 64) (Nat.le_zero.mp hn0)
  · exact fun z m hodd => hres0.trans (hstops.count hodd)

end Sys2Proof.Machine
end

/-! ## Proofs: the modular inverse (42_modinv.md R160 to R166) -/

section
namespace Sys2Proof.Machine

/-! ### The exact product (R164) -/

theorem toNat_exactProduct (y xm : Word) : (exactProduct y xm).toNat = y.toNat * xm.toNat := by
  have hlt : y.toNat * xm.toNat < 2 ^ 64 * 2 ^ 64 := Nat.mul_lt_mul'' y.isLt xm.isLt
  rw [exactProduct, BitVec.toNat_mul, BitVec.toNat_setWidth_of_le (by decide),
    BitVec.toNat_setWidth_of_le (by decide)]
  exact Nat.mod_eq_of_lt hlt

/-- The four partial products are those of the halves, and the carries lose nothing. -/
theorem partialProducts_eq_mul (y xm : Word) : partialProducts y xm = y.toNat * xm.toNat := by
  have hsplit : y.toNat * xm.toNat =
      y.toNat / 2 ^ 32 * (xm.toNat / 2 ^ 32) * 2 ^ 64 +
        (y.toNat % 2 ^ 32 * (xm.toNat / 2 ^ 32) + y.toNat / 2 ^ 32 * (xm.toNat % 2 ^ 32)) * 2 ^ 32 +
        y.toNat % 2 ^ 32 * (xm.toNat % 2 ^ 32) := by
    conv_lhs => rw [← Nat.div_add_mod y.toNat (2 ^ 32), ← Nat.div_add_mod xm.toNat (2 ^ 32)]
    ring
  rw [hsplit]
  simp only [partialProducts]
  omega

/-- Settles O38: both forms of the product are the product of the two numbers. -/
theorem partialProductsAreExact : Obligations.PartialProductsAreExact :=
  fun y xm => ⟨partialProducts_eq_mul y xm,
    (toNat_exactProduct y xm).trans (partialProducts_eq_mul y xm).symm⟩

/-! ### One pass of the bit-lifting correction (R161) -/

/-- A nonzero word is an odd number times the power of two that its trailing zeros count (00_scope.md R10). -/
theorem eq_two_pow_ctz64_mul_odd {v : Word} (h : v ≠ 0) :
    ∃ m, v.toNat = 2 ^ ctz64 v * (2 * m + 1) := by
  obtain ⟨-, hbit, hlow⟩ := ctz64_spec h
  have hdvd : 2 ^ ctz64 v ∣ v.toNat := by
    refine Nat.dvd_of_mod_eq_zero (Nat.zero_of_testBit_eq_false fun j => ?_)
    simpa [Nat.testBit_mod_two_pow, BitVec.getLsbD] using hlow j
  have hodd : v.toNat / 2 ^ ctz64 v % 2 = 1 := by
    simpa [BitVec.getLsbD, Nat.testBit_eq_decide_div_mod_eq] using hbit
  refine ⟨v.toNat / 2 ^ ctz64 v / 2, ?_⟩
  rw [← hodd, Nat.div_add_mod, Nat.mul_div_cancel' hdvd]

/-- The position at which a pass corrects: the lowest bit where `state` and 1 differ. -/
def LiftRegs.position (q : LiftRegs) : Nat := ctz64 (q.state ^^^ 1)

/-- While `state` is odd and not 1, it exceeds 1 by an odd multiple of `2^c`, `c` the position. -/
theorem LiftRegs.state_eq_position {q : LiftRegs} (hodd : q.state.toNat % 2 = 1) (hne : q.state ≠ 1) :
    q.position < 64 ∧ ∃ m, q.state.toNat = 1 + 2 ^ q.position * (2 * m + 1) := by
  have hv : q.state ^^^ 1 ≠ 0 := fun h => hne (BitVec.xor_eq_zero_iff.mp h)
  obtain ⟨m, hm⟩ := eq_two_pow_ctz64_mul_odd hv
  have hxor : (q.state ^^^ 1).toNat = q.state.toNat - 1 :=
    (BitVec.toNat_xor _ _).trans (Nat.xor_one_of_odd (Nat.odd_iff.mpr hodd))
  refine ⟨(ctz64_spec hv).1, m, ?_⟩
  rw [LiftRegs.position, ← hm, hxor]
  omega

theorem toNat_liftIter_state (xm : Word) {bits : Nat} (hbits : bits ≤ 64) (q : LiftRegs) :
    (liftIter xm bits q).state.toNat =
      (q.state.toNat + xm.toNat * 2 ^ q.position) % 2 ^ bits := by
  have hdvd : 2 ^ bits ∣ 2 ^ 64 := pow_dvd_pow 2 hbits
  show (lowBits (q.state + (xm <<< q.position)) bits).toNat = _
  rw [toNat_lowBits, BitVec.toNat_add, BitVec.toNat_shiftLeft, Nat.shiftLeft_eq, Nat.add_mod_mod,
    Nat.mod_mod_of_dvd _ hdvd]

/-- The position lies above every bit of `result`, so that setting its bit adds it. -/
theorem toNat_liftIter_result (xm : Word) (bits : Nat) {q : LiftRegs} (hpos : q.position < 64)
    (hlt : q.result.toNat < 2 ^ q.position) :
    (liftIter xm bits q).result.toNat = q.result.toNat + 2 ^ q.position := by
  show (q.result ||| (1#64 <<< q.position)).toNat = _
  rw [BitVec.toNat_or, BitVec.toNat_shiftLeft, BitVec.toNat_ofNat, Nat.or_comm,
    Nat.mod_eq_of_lt (by decide : 1 < 2 ^ 64),
    Nat.mod_eq_of_lt (by rw [Nat.shiftLeft_eq, one_mul]; exact Nat.pow_lt_pow_right (by decide) hpos),
    ← Nat.shiftLeft_add_eq_or_of_lt hlt, Nat.shiftLeft_eq, one_mul, add_comm]

/-! ### The invariant of the loop (R161, R166) -/

/-- The registers when the product `xm * result` is 1 in its low `k` bits and `result` has no bit beyond them. -/
structure LiftRegs.Lifted (xm : Word) (bits k : Nat) (q : LiftRegs) : Prop where
  state_eq : q.state.toNat = xm.toNat * q.result.toNat % 2 ^ bits
  pos : 1 ≤ k
  le : k ≤ bits
  modEq : q.state.toNat ≡ 1 [MOD 2 ^ k]
  result_lt : q.result.toNat < 2 ^ k

section
variable {xm : Word} {bits k : Nat} {q : LiftRegs} (h : q.Lifted xm bits k)
include h

theorem LiftRegs.Lifted.state_lt : q.state.toNat < 2 ^ bits :=
  h.state_eq ▸ Nat.mod_lt _ (by positivity)

theorem LiftRegs.Lifted.state_odd : q.state.toNat % 2 = 1 :=
  h.modEq.of_dvd (dvd_pow_self 2 (Nat.one_le_iff_ne_zero.mp h.pos))

/-- When all `bits` bits are those of 1, `state` is 1. -/
theorem LiftRegs.Lifted.state_eq_one (hk : bits ≤ k) : q.state = 1 := by
  obtain rfl : k = bits := le_antisymm h.le hk
  exact BitVec.eq_of_toNat_eq
    (h.modEq.eq_of_lt_of_lt h.state_lt (Nat.one_lt_two_pow (Nat.one_le_iff_ne_zero.mp h.pos)))

/-- The position of the next correction lies at or above the bits that are right, and below `bits`. -/
theorem LiftRegs.Lifted.position_bounds (hne : q.state ≠ 1) : k ≤ q.position ∧ q.position < bits := by
  obtain ⟨-, m, hm⟩ := LiftRegs.state_eq_position h.state_odd hne
  constructor
  · have hdvd := (hm ▸ h.modEq).symm
    rw [Nat.modEq_iff_dvd' (Nat.le_add_right 1 _), Nat.add_sub_cancel_left] at hdvd
    have hodd : Nat.Coprime (2 ^ k) (2 * m + 1) :=
      Nat.Coprime.pow_left k (Nat.coprime_two_left.mpr (odd_two_mul_add_one m))
    exact Nat.pow_dvd_pow_iff_le_right'.mp (hodd.dvd_of_dvd_mul_right hdvd)
  · refine (Nat.pow_lt_pow_iff_right (by decide : 1 < 2)).mp (lt_of_le_of_lt ?_ h.state_lt)
    calc 2 ^ q.position ≤ 2 ^ q.position * (2 * m + 1) := Nat.le_mul_of_pos_right _ (by omega)
      _ ≤ q.state.toNat := by omega

/-- A pass makes all the bits up to its position right. -/
theorem LiftRegs.Lifted.iter (hbits : bits ≤ 64) (hxm : xm.toNat % 2 = 1) (hne : q.state ≠ 1) :
    (liftIter xm bits q).Lifted xm bits (q.position + 1) := by
  obtain ⟨hpos, m, hm⟩ := LiftRegs.state_eq_position h.state_odd hne
  obtain ⟨hk, hlt⟩ := h.position_bounds hne
  have hstate := toNat_liftIter_state xm hbits q
  have hresult_lt : q.result.toNat < 2 ^ q.position :=
    h.result_lt.trans_le (Nat.pow_le_pow_right (by decide) hk)
  have hresult := toNat_liftIter_result xm bits hpos hresult_lt
  refine ⟨?_, Nat.le_add_left 1 _, hlt, ?_, ?_⟩
  · rw [hstate, hresult, h.state_eq, Nat.mod_add_mod, ← mul_add]
  · obtain ⟨j, hj⟩ : ∃ j, xm.toNat = 2 * j + 1 := Nat.odd_iff.mpr hxm
    have hsum : q.state.toNat + xm.toNat * 2 ^ q.position = 1 + 2 ^ (q.position + 1) * (m + j + 1) := by
      rw [hm, hj]
      ring
    rw [hstate, hsum, Nat.ModEq, Nat.mod_mod_of_dvd _ (pow_dvd_pow 2 hlt), Nat.add_mul_mod_self_left]
  · rw [hresult, pow_succ]
    omega

end

/-- Bit 0 is right from the start, since `xm` is odd. -/
theorem liftStart_lifted {xm : Word} {bits : Nat} (hone : 1 ≤ bits) (hlt : xm.toNat < 2 ^ bits)
    (hxm : xm.toNat % 2 = 1) : (liftStart xm).Lifted xm bits 1 where
  state_eq := by
    show xm.toNat = xm.toNat * 1 % 2 ^ bits
    rw [mul_one, Nat.mod_eq_of_lt hlt]
  pos := le_rfl
  le := hone
  modEq := hxm
  result_lt := Nat.one_lt_two

/-- Every pass makes at least one more bit right, until `state` is 1. -/
theorem liftLoop_lifted {xm : Word} {bits k : Nat} (hbits : bits ≤ 64) (hxm : xm.toNat % 2 = 1)
    (fuel : Nat) {q : LiftRegs} (h : q.Lifted xm bits k) :
    ∃ k', (liftLoop xm bits fuel q).Lifted xm bits k' ∧
      ((liftLoop xm bits fuel q).state = 1 ∨ k + fuel ≤ k') := by
  induction fuel generalizing q k with
  | zero => exact ⟨k, h, .inr le_rfl⟩
  | succ fuel ih =>
    by_cases hone : q.state = 1
    · rw [liftLoop_done xm bits _ hone]
      exact ⟨k, h, .inl hone⟩
    · rw [liftLoop, if_neg hone]
      obtain ⟨k', hlifted, hend⟩ := ih (h.iter hbits hxm hone)
      have hk := (h.position_bounds hone).1
      exact ⟨k', hlifted, hend.imp_right (by omega)⟩

/-- The loop on valid arguments, after any number of passes and after `bits - 1` or more (R166). -/
theorem liftLoop_of_valid {x : Word} {bits : Nat} (h : validModulus x bits = true) (fuel : Nat) :
    ∃ k, (liftLoop (lowBits x bits) bits fuel (liftStart (lowBits x bits))).Lifted (lowBits x bits) bits k ∧
      (bits - 1 ≤ fuel →
        (liftLoop (lowBits x bits) bits fuel (liftStart (lowBits x bits))).state = 1) := by
  obtain ⟨hone, hbits, hodd⟩ := (validModulus_iff x bits).mp h
  rw [← toNat_lowBits] at hodd
  have hlt : (lowBits x bits).toNat < 2 ^ bits := by
    rw [toNat_lowBits]
    exact Nat.mod_lt _ (by positivity)
  obtain ⟨k, hlifted, hend⟩ := liftLoop_lifted hbits hodd fuel (liftStart_lifted hone hlt hodd)
  exact ⟨k, hlifted, fun hfuel => hend.elim id fun hk => hlifted.state_eq_one (by omega)⟩

/-- Settles O37: at most `bits - 1` bits above bit 0 are left to make right, at least one a pass. -/
theorem bitLiftEndsInTime : Obligations.BitLiftEndsInTime := by
  intro x bits hvalid
  constructor
  · intro fuel
    obtain ⟨k, hlifted, -⟩ := liftLoop_of_valid hvalid fuel
    exact hlifted.state_eq
  · obtain ⟨k, -, hend⟩ := liftLoop_of_valid hvalid (bits - 1)
    exact hend le_rfl

/-! ### Inverses modulo `2^bits` (R162, R163, R165) -/

/-- `y` is the inverse of `xm` modulo `2^bits`. -/
structure IsInverse (bits xm y : Nat) : Prop where
  lt : y < 2 ^ bits
  mul_mod : xm * y % 2 ^ bits = 1

section
variable {bits xm y : Nat} (h : IsInverse bits xm y)
include h

theorem IsInverse.modEq : xm * y ≡ 1 [MOD 2 ^ bits] :=
  h.mul_mod ▸ (Nat.mod_modEq _ _).symm

theorem IsInverse.unique {z : Nat} (h' : IsInverse bits xm z) : z = y := by
  have hzy : z ≡ y [MOD 2 ^ bits] := by
    calc z = z * 1 := (mul_one z).symm
      _ ≡ z * (xm * y) [MOD 2 ^ bits] := h.modEq.symm.mul_left z
      _ = y * (xm * z) := by ring
      _ ≡ y * 1 [MOD 2 ^ bits] := h'.modEq.mul_left y
      _ = y := mul_one y
  exact hzy.eq_of_lt_of_lt h'.lt h.lt

/-- The product with an inverse is odd, so the inverse is. -/
theorem IsInverse.odd (hone : 1 ≤ bits) : y % 2 = 1 := by
  have hmul : xm * y % 2 = 1 := h.modEq.of_dvd (dvd_pow_self 2 (Nat.one_le_iff_ne_zero.mp hone))
  exact Nat.odd_iff.mp (Nat.odd_mul.mp (Nat.odd_iff.mpr hmul)).2

theorem IsInverse.companion : y * xm = y * xm / 2 ^ bits * 2 ^ bits + 1 := by
  rw [← h.mul_mod, mul_comm xm y, Nat.div_add_mod']

theorem IsInverse.companion_lt (hxm : xm < 2 ^ bits) : y * xm / 2 ^ bits < 2 ^ bits :=
  Nat.div_lt_of_lt_mul (Nat.mul_lt_mul'' h.lt hxm)

end

theorem bitLift_isInverse {x : Word} {bits : Nat} (h : validModulus x bits = true) :
    IsInverse bits (x.toNat % 2 ^ bits) (bitLift (lowBits x bits) bits).toNat := by
  obtain ⟨k, hlifted, hend⟩ := liftLoop_of_valid h bits
  refine ⟨hlifted.result_lt.trans_le (Nat.pow_le_pow_right (by decide) hlifted.le), ?_⟩
  have hstate := hlifted.state_eq
  rw [hend (Nat.sub_le bits 1), toNat_lowBits] at hstate
  exact hstate.symm

/-! ### The two commands (R162, R163, R165) -/

/-- The shift of the 128-bit product, taken to 64 bits, is a quotient of the product of the numbers. -/
theorem setWidth_exactProduct_shift (y xm : Word) (n : Nat) :
    (exactProduct y xm >>> n).setWidth 64 = BitVec.ofNat 64 (y.toNat * xm.toNat / 2 ^ n) := by
  apply BitVec.eq_of_toNat_eq
  rw [BitVec.toNat_setWidth, BitVec.toNat_ushiftRight, toNat_exactProduct, BitVec.toNat_ofNat,
    Nat.shiftRight_eq_div_pow]

theorem exec_minv_of_valid {s : State} (h : validModulus s.latA s.latB.toNat = true) :
    exec .minv s = .next
      { s with
        res0 := bitLift (lowBits s.latA s.latB.toNat) s.latB.toNat, res1 := 0, inval := false
        busy := false, done := true } := by
  rw [exec_eq_complete, execResult, minvResult, if_pos h]
  rfl

theorem exec_minvc_of_valid {s : State} (h : validModulus s.latA s.latB.toNat = true) :
    let xm := s.latA.toNat % 2 ^ s.latB.toNat
    let y := bitLift (lowBits s.latA s.latB.toNat) s.latB.toNat
    exec .minvc s = .next
      { s with
        res0 := y, res1 := BitVec.ofNat 64 (y.toNat * xm / 2 ^ s.latB.toNat), inval := false
        busy := false, done := true } := by
  rw [exec_eq_complete, execResult, minvcResult, if_pos h]
  simp only [setWidth_exactProduct_shift, toNat_lowBits]
  rfl

theorem exec_of_invalid {s : State} (h : ¬ validModulus s.latA s.latB.toNat = true) {i : Instr}
    (hi : i = .minv ∨ i = .minvc) :
    exec i s = .next { s with res0 := 0, res1 := 0, inval := true, busy := false, done := true } := by
  have hresult : execResult i s.latA s.latB s.latC = invalidModulusResult := by
    obtain rfl | rfl := hi
    · exact if_neg h
    · exact if_neg h
  rw [exec_eq_complete, hresult]
  rfl

/-- Settles O34: the result of the bit-lifting loop is the inverse, and an inverse has one value. -/
theorem minvCompletes : Obligations.MinvCompletes := by
  intro s
  dsimp only
  rw [← validModulus_iff]
  refine ⟨fun hvalid => ?_, fun hinvalid => exec_of_invalid hinvalid (.inl rfl)⟩
  have hinv := bitLift_isInverse hvalid
  refine ⟨_, hinv.lt, hinv.mul_mod, fun z hz hmul => hinv.unique ⟨hz, hmul⟩, ?_⟩
  rw [exec_minv_of_valid hvalid, BitVec.ofNat_toNat, BitVec.setWidth_eq]

/-- Settles O35: the companion is the quotient of the product by the modulus, where the remainder is 1. -/
theorem minvcCompletes : Obligations.MinvcCompletes := by
  intro s
  dsimp only
  rw [← validModulus_iff]
  refine ⟨fun hvalid => ?_, fun hinvalid => exec_of_invalid hinvalid (.inr rfl)⟩
  have hinv := bitLift_isInverse hvalid
  refine ⟨_, _, hinv.lt, hinv.mul_mod, rfl, hinv.companion,
    hinv.companion_lt (Nat.mod_lt _ (by positivity)), ?_⟩
  rw [exec_minvc_of_valid hvalid, BitVec.ofNat_toNat, BitVec.setWidth_eq]

/-- Settles O36: both commands answer the one loop's result, an inverse, or both are invalid. -/
theorem inverseCommandsAgree : Obligations.InverseCommandsAgree := by
  intro s
  by_cases hvalid : validModulus s.latA s.latB.toNat = true
  · have hone := ((validModulus_iff _ _).mp hvalid).1
    exact ⟨_, _, exec_minv_of_valid hvalid, exec_minvc_of_valid hvalid, rfl, rfl,
      fun _ => (bitLift_isInverse hvalid).odd hone⟩
  · exact ⟨_, _, exec_of_invalid hvalid (.inl rfl), exec_of_invalid hvalid (.inr rfl), rfl, rfl,
      nofun⟩

end Sys2Proof.Machine
end

/-! ## Proofs: the priority of what one access reports (60_exceptions.md R204) -/

section
namespace Sys2Proof.Machine

theorem legalWord_eq_false_iff (w : Word) : legalWord w = false ↔ (decode w).toOption = none :=
  Option.isSome_eq_false_iff.trans Option.isNone_iff_eq_none

/-- The legal words are the six command words (30_encoding.md R81, R87). -/
theorem legalWord_iff (w : Word) : legalWord w = true ↔ ∃ i, w = encode i := by
  constructor
  · intro hlegal
    cases hd : decode w with
    | command i => exact ⟨i, eq_encode_of_decode hd⟩
    | illegal e => simp [legalWord, Decoded.toOption, hd] at hlegal
  · rintro ⟨i, rfl⟩
    exact legalWord_encode i

/-- Settles O21: an access that delivers a word is `commandWrite` of it, which tests BUSY before the word; a completion
writes DONE but neither ILLOP nor CBUSY. -/
theorem conditionPriority : Obligations.ConditionPriority := by
  intro a s
  refine ⟨fun hl => access_of_not_legal hl s, ?_, ?_, ?_, ?_⟩
  · intro w hw hbusy
    rw [access_of_deliveredWord hw, commandWrite_of_busy w hbusy]
  · intro w hw hidle hillegal
    rw [access_of_deliveredWord hw,
      commandWrite_of_illegal hidle ((legalWord_eq_false_iff w).mp hillegal)]
  · intro w hw hidle hlegal
    obtain ⟨i, rfl⟩ := (legalWord_iff w).mp hlegal
    rw [access_of_deliveredWord hw, commandWrite_encode i hidle]
  · intro i
    exact ⟨_, exec_eq_complete i s, complete_illop _ s, complete_cbusy _ s, complete_done _ s⟩

end Sys2Proof.Machine
end

/-! ## Proofs: reset and the tearing hazard (70_reset_and_hazards.md R240, R247) -/

section
namespace Sys2Proof.Machine

/-- Settles O47: the turn of a reset is `applyReset`, which keeps the schedule alone. -/
theorem resetFromAnyState : Obligations.ResetFromAnyState :=
  fun _ _ h => step_of_turns_cons h

/-! ### Two 4-byte reads of RES0 with a completion between them -/

theorem step_of_legal_read {s : State} {off n : Nat} {v : Word} {rest : List Turn}
    (ht : s.turns = .host ⟨.read, off, n, v⟩ :: rest)
    (hl : (⟨.read, off, n, v⟩ : Access).legal = true) :
    step s = .next { s with turns := rest, response := some (.readOk (readValue s off n)) } := by
  rw [step_of_turns_cons ht, turnStep, access_read_of_legal hl,
    readValue_congr (s := { s with turns := rest }) (s' := s) rfl]

theorem step_of_completion {s : State} {i : Instr} {rest : List Turn}
    (ht : s.turns = .unit :: rest) (hb : s.busy = true) (hf : s.inFlight = .command i) :
    step s = .next (complete (execResult i s.latA s.latB s.latC) { s with turns := rest }) := by
  rw [step_of_turns_cons ht, turnStep,
    unitStep_of_inFlight (s := { s with turns := rest }) hb hf, exec_eq_complete]

theorem readValue_res0_low (s : State) :
    readValue s 0x30 4 = BitVec.ofNat 64 (s.res0.toNat % 2 ^ 32) := rfl

theorem readValue_res0_high (s : State) : readValue s 0x34 4 = s.res0 >>> 32 := by
  apply BitVec.eq_of_toNat_eq
  have hread : readValue s 0x34 4 = lowBits (s.res0 >>> 32) 32 := rfl
  have hfits : (s.res0 >>> 32).toNat < 2 ^ 32 := by
    rw [BitVec.toNat_ushiftRight, Nat.shiftRight_eq_div_pow]
    exact Nat.div_lt_of_lt_mul s.res0.isLt
  rw [hread, toNat_lowBits, Nat.mod_eq_of_lt hfits]

/-- The reads that straddle a completion (R247). -/
def tornReadTurns : List Turn :=
  [.host ⟨.read, 0x30, 4, 0⟩, .unit, .host ⟨.read, 0x34, 4, 0⟩]

/-- Whatever command is in flight, the low half read is the old RES0's and the high half read is the new one's. -/
theorem reads_straddle_completion {s : State} {i : Instr} (ht : s.turns = tornReadTurns)
    (hb : s.busy = true) (hf : s.inFlight = .command i) :
    ∃ t u v, step s = .next t ∧ step t = .next u ∧ step u = .next v ∧
      t.busData = BitVec.ofNat 64 (s.res0.toNat % 2 ^ 32) ∧ v.busData = u.res0 >>> 32 ∧
      u.res0 = (execResult i s.latA s.latB s.latC).res0 :=
  ⟨_, _, _, step_of_legal_read ht (by decide), step_of_completion rfl hb hf,
    step_of_legal_read rfl (by decide), readValue_res0_low s, readValue_res0_high _, rfl⟩

/-- SQRTQ32 of 2 in flight while RES0 still holds 3, the result of ISQRT of 9. -/
def tornReadStart : State :=
  { accept (encode .sqrtq32) { State.reset with opa := 2, res0 := 3 } with turns := tornReadTurns }

theorem tornReadStart_inv : tornReadStart.Inv where
  busy_not_done _ := rfl
  cmdLast_le := encode_le_six .sqrtq32
  busy_latched _ := ⟨latchedOpcode_accept .sqrtq32 _, (opField_encode_setWidth .sqrtq32).symm⟩
  digbuf_wf := rfl

theorem sqrtq32Result_isIsqrt (x : Word) :
    IsIsqrt (x.toNat * 2 ^ 64) (sqrtq32Result x).res0.toNat := by
  simpa [sqrtLead, sqrtq32Result, Config.q32Iterations] using
    (sqrtCore_isIsqrt x false (n := 64) (.inr rfl)).1

/-- SQRTQ32 of 2, as in 95_test_vectors.md: the integer root of `2 * 2^64`. -/
theorem sqrtq32Result_two : (sqrtq32Result 2).res0 = 0x16A09E667 := by
  have hvalue : IsIsqrt ((2 : Word).toNat * 2 ^ 64) (0x16A09E667 : Word).toNat :=
    ⟨by decide, by decide⟩
  exact BitVec.eq_of_toNat_eq ((sqrtq32Result_isIsqrt 2).unique hvalue)

/-- Settles O55: from `tornReadStart` the two halves make 0x100000003, neither 3 nor 0x16A09E667. -/
theorem tornReadIsPossible : Obligations.TornReadIsPossible := by
  obtain ⟨t, u, v, ht, hu, hv, hlow, hhigh, hres⟩ :=
    reads_straddle_completion (s := tornReadStart) rfl rfl (decodeOp_opField_encode .sqrtq32)
  have hnew : u.res0 = 0x16A09E667 := hres.trans sqrtq32Result_two
  have htorn : v.busData <<< 32 ||| t.busData = 0x100000003 := by
    rw [hhigh, hnew, hlow]
    decide
  refine ⟨tornReadStart, t, u, v, tornReadStart_inv, ht, hu, hv, rfl, hlow, hhigh, ?_, ?_⟩
  · rw [htorn]
    decide
  · rw [htorn, hnew]
    decide

end Sys2Proof.Machine
end
